-- ==== Sys2Proof/Word.lean ====
section
/-! DEFINITION. The bit vectors of the machine: what the spec treats as bits (R4 to R7 of 00_scope.md).
Bit 0 is the least significant; `a ++ b` is the spec's `a : b`, its left operand the more significant (R6, C4);
`x.extractLsb' lo len` is the spec's slice `x[lo+len-1 : lo]` (R5); `x.toNat` is `UInt(x)` (R7). -/

namespace Sys2Proof

/-- One byte: an element of a vector (R23), a byte of program text (R41). -/
abbrev Byte := BitVec 8

/-- 16 bits: half of a T32 instruction (R62). -/
abbrev Halfword := BitVec 16

/-- 32 bits: an instruction word (R60), an address (R41), the program counter (R28). -/
abbrev Word := BitVec 32

/-- 64 bits: one `D` register (R20). -/
abbrev DWord := BitVec 64

/-- 128 bits: one `Q` register (R21). -/
abbrev QWord := BitVec 128

/-- The 5-bit number of a `D` register, the spec's `D:Vd`, `N:Vn` or `M:Vm` (R66). -/
abbrev DNum := BitVec 5

/-- The 4-bit number of a `Q` register (R21). -/
abbrev QNum := BitVec 4

end Sys2Proof
end

