-- ==== Sys2Proof/Syntax.lean ====
section
/-! DEFINITION. The instruction as a tree: one constructor for each row of spec/opcode_table.json, that is for
each of the four encodings of VEXT (R2, R64), and the names of its parts (R66, R67). -/

namespace Sys2Proof

/-- `ISET`: the two instruction sets of AArch32 (R29, D10). -/
inductive ISet where
  | a32
  | t32
  deriving DecidableEq, Repr

/-- The four encodings of VEXT. `d`, `n`, `m` are the 5-bit numbers `D:Vd` (destination), `N:Vn` (first source) and
`M:Vm` (second source); in a quadword form they are twice the `Q` number (R66, R79). -/
inductive Instr where
  /-- R100: 64-bit SIMD vector, A32. -/
  | vextA1D (d n m : DNum) (imm4 : BitVec 4)
  /-- R101: 128-bit SIMD vector, A32. -/
  | vextA1Q (d n m : DNum) (imm4 : BitVec 4)
  /-- R102: 64-bit SIMD vector, T32. -/
  | vextT1D (d n m : DNum) (imm4 : BitVec 4)
  /-- R103: 128-bit SIMD vector, T32. -/
  | vextT1Q (d n m : DNum) (imm4 : BitVec 4)
  deriving DecidableEq, Repr

/-- Why a VEXT is UNDEFINED, kept for diagnosis as R120 allows: its causes U1, U2 and U3. -/
inductive UndefCause where
  /-- U1: `Q = 1` and a register number is odd (R68). -/
  | oddQuadRegister
  /-- U2: `Q = 0` and `imm4[3] = 1` (R69). -/
  | doublewordImmediate
  /-- U3: `ADVSIMD_CHECK` answers undefined (R93). -/
  | advSimdDisabled
  deriving DecidableEq, Repr

/-- The instruction set an encoding belongs to (R2). -/
def Instr.iset : Instr → ISet
  | .vextA1D _ _ _ _ => .a32
  | .vextA1Q _ _ _ _ => .a32
  | .vextT1D _ _ _ _ => .t32
  | .vextT1Q _ _ _ _ => .t32

/-- `quadword_operation = (Q == '1')` (R67). -/
def Instr.quadword : Instr → Bool
  | .vextA1D _ _ _ _ => false
  | .vextA1Q _ _ _ _ => true
  | .vextT1D _ _ _ _ => false
  | .vextT1Q _ _ _ _ => true

/-- `d`, the destination's number (R66). -/
def Instr.d : Instr → DNum
  | .vextA1D d _ _ _ => d
  | .vextA1Q d _ _ _ => d
  | .vextT1D d _ _ _ => d
  | .vextT1Q d _ _ _ => d

/-- `n`, the first source's number (R66). -/
def Instr.n : Instr → DNum
  | .vextA1D _ n _ _ => n
  | .vextA1Q _ n _ _ => n
  | .vextT1D _ n _ _ => n
  | .vextT1Q _ n _ _ => n

/-- `m`, the second source's number (R66). -/
def Instr.m : Instr → DNum
  | .vextA1D _ _ m _ => m
  | .vextA1Q _ _ m _ => m
  | .vextT1D _ _ m _ => m
  | .vextT1Q _ _ m _ => m

/-- The field `imm4` (R63). -/
def Instr.imm4 : Instr → BitVec 4
  | .vextA1D _ _ _ imm4 => imm4
  | .vextA1Q _ _ _ imm4 => imm4
  | .vextT1D _ _ _ imm4 => imm4
  | .vextT1Q _ _ _ imm4 => imm4

end Sys2Proof
end

