-- ==== Sys2Proof/WellFormed.lean ====
section
/-! DEFINITION. Which instructions an assembler may write: the operand ranges of R79, R80 and R83, said of the
numbers. Decode.lean says the UNDEFINED tests of the Decode text of the bits (R68, R69). -/

namespace Sys2Proof

/-- `<imm>` of the doubleword form is "in the range 0 to 7" (R80). -/
def Instr.immInRange : Instr → Bool
  | .vextA1D _ _ _ imm4 => imm4.toNat ≤ 7
  | .vextA1Q _ _ _ imm4 => imm4.toNat ≤ 15
  | .vextT1D _ _ _ imm4 => imm4.toNat ≤ 7
  | .vextT1Q _ _ _ imm4 => imm4.toNat ≤ 15

/-- A register number of the quadword form is "encoded as <Qd>*2" (R79), so it is even; the doubleword form takes
all 32 numbers (R20). -/
def Instr.regEncodes (quadword : Bool) (r : DNum) : Bool :=
  !quadword || r.toNat % 2 == 0

/-- The instruction is one that R83 encodes: its immediate is in range and its three register numbers are numbers
of registers of its form. -/
def Instr.wellFormed (i : Instr) : Bool :=
  i.immInRange && Instr.regEncodes i.quadword i.d && Instr.regEncodes i.quadword i.n && Instr.regEncodes i.quadword i.m

end Sys2Proof
end

