-- ==== Sys2Proof/Decode.lean ====
section
/-! DEFINITION. From bits to instructions and back: the two UNDEFINED tests (R68, R69), the total decoder (R71),
the byte orders of an instruction (R44), the encoder written from the two diagrams (R61, R62), and the operand
encoder of R83. -/

namespace Sys2Proof

/-! ## The UNDEFINED tests of the Decode text -/

/-- "if Q == '1' && (Vd<0> == '1' || Vn<0> == '1' || Vm<0> == '1') then UNDEFINED; if Q == '0' && imm4<3> == '1' then
UNDEFINED;" (R68, R69): the cause when a word is UNDEFINED, none when it is defined. Bit 0 of `D:Vd` is `Vd<0>`. -/
def Instr.undefCause (i : Instr) : Option UndefCause :=
  if i.quadword then
    if i.d.getLsbD 0 || i.n.getLsbD 0 || i.m.getLsbD 0 then some .oddQuadRegister else none
  else
    if i.imm4.getLsbD 3 then some .doublewordImmediate else none

/-! ## The decoder -/

/-- Why bytes spell no instruction of the spec. -/
inductive DecodeReject where
  /-- The word matches none of the four encodings under the instruction set (R73). -/
  | notVext (word : Word)
  /-- Fewer than the four bytes of an instruction (R60). -/
  | tooFewBytes
  deriving DecidableEq, Repr

/-- The mask of an instruction class, without the bit `Q` (R65, R71). -/
def classMask : Word := 0xFFB00010#32

/-- The fixed bits of a class: A1 for A32, T1 for T32 (R65, R71). -/
def classBase : ISet → Word
  | .a32 => 0xF2B00000#32
  | .t32 => 0xEFB00000#32

/-- The encoding that the instruction set and the bit `Q` select (R64). -/
def Instr.ofFields : ISet → Bool → DNum → DNum → DNum → BitVec 4 → Instr
  | .a32, false => .vextA1D
  | .a32, true => .vextA1Q
  | .t32, false => .vextT1D
  | .t32, true => .vextT1Q

/-- `D:Vd`: bit 22, then bits 15:12 (R63, R66). -/
def fieldD (w : Word) : DNum := w.extractLsb' 22 1 ++ w.extractLsb' 12 4

/-- `N:Vn`: bit 7, then bits 19:16 (R63, R66). -/
def fieldN (w : Word) : DNum := w.extractLsb' 7 1 ++ w.extractLsb' 16 4

/-- `M:Vm`: bit 5, then bits 3:0 (R63, R66). -/
def fieldM (w : Word) : DNum := w.extractLsb' 5 1 ++ w.extractLsb' 0 4

/-- `imm4`: bits 11:8 (R63). -/
def fieldImm4 (w : Word) : BitVec 4 := w.extractLsb' 8 4

/-- The total decoder (R71). An UNDEFINED word of the class is decoded too: whether it faults is decided when it is
executed, after its condition (R90, R92). -/
def decode (iset : ISet) (w : Word) : Except DecodeReject Instr :=
  if w &&& classMask = classBase iset then
    .ok (Instr.ofFields iset (w.getLsbD 6) (fieldD w) (fieldN w) (fieldM w) (fieldImm4 w))
  else
    .error (.notVext w)

/-! ## Bytes of an instruction (R44) -/

/-- The word that four bytes at increasing addresses spell: little-endian in A32; in T32 two little-endian
halfwords, the one with bits 31:16 first (R44, D11). -/
def wordOfBytes : ISet → Byte → Byte → Byte → Byte → Word
  | .a32, b0, b1, b2, b3 => b3 ++ b2 ++ b1 ++ b0
  | .t32, b0, b1, b2, b3 => (b1 ++ b0) ++ (b3 ++ b2)

/-- The four bytes of a word at increasing addresses, the inverse of `wordOfBytes` (R44). -/
def bytesOfWord : ISet → Word → List Byte
  | .a32, w => [w.extractLsb' 0 8, w.extractLsb' 8 8, w.extractLsb' 16 8, w.extractLsb' 24 8]
  | .t32, w => [w.extractLsb' 16 8, w.extractLsb' 24 8, w.extractLsb' 0 8, w.extractLsb' 8 8]

/-- Decode the first instruction of a list of bytes and return the bytes after it. Every T32 instruction is taken as
two halfwords (D23). -/
def decodeBytes (iset : ISet) : List Byte → Except DecodeReject (Instr × List Byte)
  | b0 :: b1 :: b2 :: b3 :: rest => (decode iset (wordOfBytes iset b0 b1 b2 b3)).map (·, rest)
  | _ => .error .tooFewBytes

/-- R74: a T32 instruction is 32 bits long when bits 15:11 of its first halfword are 11101, 11110 or 11111. PRESUMED
in the spec's own words (general knowledge); no step depends on it, since every T32 fetch reads two halfwords. -/
def t32IsWide (hw1 : Halfword) : Bool :=
  hw1.extractLsb' 11 5 == 0b11101#5 || hw1.extractLsb' 11 5 == 0b11110#5 || hw1.extractLsb' 11 5 == 0b11111#5

/-! ## The encoder -/

/-- The nine fixed bits 31:23 of the class's diagram (R61, R62). -/
def fixedTop : ISet → BitVec 9
  | .a32 => 0b111100101#9
  | .t32 => 0b111011111#9

/-- The diagram read from bit 31 down: fixed, `D`, `11`, `Vn`, `Vd`, `imm4`, `N`, `Q`, `M`, `0`, `Vm` (R61, R62). -/
def encodeFields (iset : ISet) (quadword : Bool) (d n m : DNum) (imm4 : BitVec 4) : Word :=
  fixedTop iset ++ d.extractLsb' 4 1 ++ 0b11#2 ++ n.extractLsb' 0 4 ++ d.extractLsb' 0 4 ++ imm4
    ++ n.extractLsb' 4 1 ++ BitVec.ofBool quadword ++ m.extractLsb' 4 1 ++ 0b0#1 ++ m.extractLsb' 0 4

/-- The word of an instruction. It is written for UNDEFINED operands too, so that a fault can record its word. -/
def encode (i : Instr) : Word := encodeFields i.iset i.quadword i.d i.n i.m i.imm4

/-- The bytes of an instruction at increasing addresses (R44). -/
def encodeBytes (i : Instr) : List Byte := bytesOfWord i.iset (encode i)

/-- The operands R83 requires: register numbers 0 to 31, and even in the quadword form; immediates 0 to 7, and 0 to 15
in the quadword form. -/
def operandsEncodable (quadword : Bool) (rd rn rm imm : Nat) : Bool :=
  rd ≤ 31 && rn ≤ 31 && rm ≤ 31 &&
    (if quadword then imm ≤ 15 && rd % 2 == 0 && rn % 2 == 0 && rm % 2 == 0 else imm ≤ 7)

/-- R83's `encode(ISET, variant, rd, rn, rm, imm)`, with its shifts and ORs; none where its requirements fail. -/
def encodeOperands (iset : ISet) (quadword : Bool) (rd rn rm imm : Nat) : Option Word :=
  if operandsEncodable quadword rd rn rm imm then
    some (classBase iset ||| (BitVec.ofNat 32 (rd / 16) <<< 22) ||| (BitVec.ofNat 32 (rn % 16) <<< 16)
      ||| (BitVec.ofNat 32 (rd % 16) <<< 12) ||| (BitVec.ofNat 32 imm <<< 8) ||| (BitVec.ofNat 32 (rn / 16) <<< 7)
      ||| (BitVec.ofNat 32 quadword.toNat <<< 6) ||| (BitVec.ofNat 32 (rm / 16) <<< 5) ||| BitVec.ofNat 32 (rm % 16))
  else
    none

/-! ## The opcode table's numbering -/

/-- The instruction set under which a word is a VEXT; the two classes have no word in common (R65). -/
def isetOfWord (w : Word) : Option ISet :=
  if w &&& classMask = classBase .a32 then some .a32
  else if w &&& classMask = classBase .t32 then some .t32
  else none

/-- What the decoder reads from an instruction whose bits are `w`, numbered as spec/opcode_table.json numbers them:
the 32 bits of the diagram (log entry 10). The word is laid out in bytes as its instruction set stores it and read
back. -/
def decodeTableWord (nbits w : Nat) : Option Instr :=
  let word := BitVec.ofNat 32 (w % 2 ^ nbits)
  match isetOfWord word with
  | none => none
  | some iset =>
    match decodeBytes iset (bytesOfWord iset word) with
    | .ok (i, _) => some i
    | .error _ => none

end Sys2Proof
end

