-- ==== Sys2Proof/Config.lean ====
section
/-! DEFINITION. What is fixed for the machine, the types of the launch parameters the spec leaves OPEN
(00_scope.md section 4), and the one free value. -/

namespace Sys2Proof

/-- `NUM_DREGS`: every 5-bit number names a register (R20, D8). -/
abbrev Config.numDRegs : Nat := 32

/-- How many byte addresses there are (R41, D13), and the bound `pc + 4` stays under (R28, D9). -/
abbrev Config.addressSpace : Nat := 2 ^ 32

/-- Both encodings are 32 bits long, so an instruction is four bytes (R60, R28). -/
abbrev Config.instrBytes : Nat := 4

/-- The three outcomes of `CheckAdvSIMDEnabled()` (R93): the answers of the parameter `ADVSIMD_CHECK` (D4). -/
inductive AdvSimdAnswer where
  | pass
  | undefined
  | hypTrap
  deriving DecidableEq, Repr

/-- `COND_FAIL_UNDEF` (R92, D6): what an UNDEFINED word does when its condition fails. -/
inductive CondFailUndef where
  | nop
  | undefined
  | either
  deriving DecidableEq, Repr

/-- FREE VALUE (log entry 8): under `COND_FAIL_UNDEF = either` both outcomes are admitted (R92), and this says
which one the `k`-th such case takes. It has no body: nothing can be proved about it. -/
opaque Config.eitherFaults : Nat → Bool

end Sys2Proof
end

