-- ==== Sys2Proof/Machine/State.lean ====
section
/-! DEFINITION. The state of the machine (R34): the `D` cells, `pc`, `ISET`, the component `sys` with everything the
spec names in it, the program text, and the launch parameters a step reads. Plain data throughout. -/

namespace Sys2Proof.Machine

/-- "the NZCV flags" (R24). -/
structure Flags where
  n : Bool
  z : Bool
  c : Bool
  v : Bool
  deriving DecidableEq, Repr

/-- The interrupt masks (R33's row). The three names are PRESUMED (log entry 2): the spec names none. -/
structure InterruptMasks where
  a : Bool
  i : Bool
  f : Bool
  deriving DecidableEq, Repr

/-- The Security states (R27; their names from R128). -/
inductive Security where
  | secure
  | nonSecure
  deriving DecidableEq, Repr

/-- The PE modes (R27; their names from R128). -/
inductive Mode where
  | user
  | fiq
  | irq
  | supervisor
  | monitor
  | abort
  | hyp
  | undefinedMode
  | system
  deriving DecidableEq, Repr

/-- The component `sys` (R34): what `ADVSIMD_CHECK` may read and no VEXT writes (R32). The places of the fields inside
`CPSR` are not the spec's (N6), so each field has its own name; `cpsrRest` is the rest of `CPSR` (R33). The
general-purpose registers `gpr` are one set without banking: R30 and N5 leave their count, width, names and banking
open, and the one unbanked set is a DESIGN CHOICE (log entry 22; their count and width are PRESUMED, log entry 2). -/
structure Sys where
  flags    : Flags
  dit      : Bool
  itstate  : BitVec 8
  masks    : InterruptMasks
  cpsrRest : Word
  cpacr    : Word
  nsacr    : Word
  hcptr    : Word
  fpexc    : Word
  security : Security
  mode     : Mode
  gpr      : Vector Word 15
  deriving DecidableEq, Repr

/-- `ADVSIMD_CHECK : sys -> {pass, undefined, hyp_trap}` (R93, D4) as plain data: the answers for some values of `sys`,
the first row for a value counting, and one answer for every value of `sys` without a row. -/
structure AdvSimdCheck where
  rows      : List (Sys × AdvSimdAnswer)
  otherwise : AdvSimdAnswer
  deriving DecidableEq, Repr

/-- Program text `Mem` (R42): pairs of an address and its byte, addresses strictly rising and below 2^32. An address
that is not listed has no byte: nothing equals what it reads as, so no entry can be superfluous. -/
abbrev Memory := List Host.Cell

/-- The canonical form of `Memory`: every address is at least `lo` and below 2^32, and each is above the one before. -/
def Memory.wfFrom : Nat → Memory → Bool
  | _, [] => true
  | lo, (a, _) :: rest => decide (lo ≤ a) && decide (a < Config.addressSpace) && Memory.wfFrom (a + 1) rest

/-- The canonical form of `Memory`. -/
def Memory.wf (m : Memory) : Bool := Memory.wfFrom 0 m

/-- The whole state (R34), the program text (R42) and the launch parameters of R145. -/
structure State where
  /-- `D[0]` to `D[31]` (R20); `Q[i]` is `D[2i+1] : D[2i]` (R22) and has no storage of its own. -/
  d             : Vector DWord 32
  /-- The byte address of the current instruction (R28). -/
  pc            : Word
  /-- The instruction set being decoded (R29). -/
  iset          : ISet
  /-- Everything VEXT never writes (R34). -/
  sys           : Sys
  /-- The program text (R42). -/
  mem           : Memory
  /-- `END`: the run ends when `pc` is here (R143). -/
  endAddr       : Word
  /-- `ADVSIMD_CHECK` (R93). -/
  advSimd       : AdvSimdCheck
  /-- `COND_PASSED` of the T32 steps to come, oldest first; TRUE when none is left (R91, log entry 7). -/
  condInputs    : List Bool
  /-- `COND_FAIL_UNDEF` (R92). -/
  condFailUndef : CondFailUndef
  /-- The model's own counter of free choices drawn (log entry 8). -/
  freeChoices   : Nat
  deriving DecidableEq, Repr

/-- The faults (R120 to R122): terminal, with the word and the `pc` of the instruction; the state at the fault is the
state before it. -/
inductive Fault where
  /-- `UndefinedInstruction` (R120, D2). Raised by the UNDEFINED tests, by the enable check and, when the condition
  failed, as `COND_FAIL_UNDEF` says. Safe: the chip goes on to a handler, of which the model says nothing. -/
  | undefinedInstruction (word pc : Word) (cause : UndefCause)
  /-- `HypTrap` (R121, D3). Raised by the enable check. Safe: as above. -/
  | hypTrap (word pc : Word)
  deriving DecidableEq, Repr

/-- The refusals: situations to which the spec gives no meaning (D1), no fault of the chip. -/
inductive Refusal where
  /-- An instruction with no meaning yet, by its mnemonic. Safe. No arm of exec raises it. -/
  | notModelled (mnemonic : String)
  /-- The fetched word is none of the four encodings under `ISET` (R73). Raised by the decoding of a step. Safe. -/
  | notVext (word : Word)
  /-- A fetch from an address where `Mem` is not defined (R42, R44). Raised by fetch. Safe. -/
  | noProgramByte (addr : Nat)
  /-- An A32 fetch with `pc[1:0]` not 00 (R44, R45). Raised by fetch. Safe. -/
  | misalignedA32Fetch (pc : Word)
  /-- A T32 fetch with `pc[0]` not 0 (R44, R45). Raised by fetch. Safe. -/
  | misalignedT32Fetch (pc : Word)
  /-- `pc + 4` would reach 2^32 (R28, R146). Raised before fetch, and by an instruction that would complete. Safe. -/
  | pcWouldWrap (pc : Word)
  /-- `pc = END`: the state is final and has no step (R143, R146). Raised before anything else. Safe. -/
  | runEnded
  deriving DecidableEq, Repr

/-- `sys` as State.reset has it (log entries 1 and 2). -/
def Sys.reset : Sys where
  flags    := ⟨false, false, false, false⟩
  dit      := false
  itstate  := 0
  masks    := ⟨true, true, true⟩
  cpsrRest := 0
  cpacr    := 0
  nsacr    := 0
  hcptr    := 0x000033FF
  fpexc    := 0
  security := .secure
  mode     := .supervisor
  gpr      := Vector.replicate 15 0

/-- The spec gives no reset value at all (R33, R140): every value here is named in log entries 1 to 4 and 6 to 8. It is
a launch state without program text, in which the premises `AdvSIMDEnabled`, `NotInITBlock` and `PcAligned` of R142
hold. -/
def State.reset : State where
  d             := Vector.replicate 32 0
  pc            := 0
  iset          := .a32
  sys           := Sys.reset
  mem           := []
  endAddr       := 0xFFFFFFFC
  advSimd       := ⟨[], .pass⟩
  condInputs    := []
  condFailUndef := .either
  freeChoices   := 0

end Sys2Proof.Machine
end

