-- ==== Sys2Proof/Machine/Flags.lean ====
section
/-! DEFINITION. What is read of the flags: the condition of a VEXT (R91), and the condition table and `ITSTATE` of
93_implementation_defined.md G4, which the spec gives for information. No instruction of the spec writes a flag
(R98). -/

namespace Sys2Proof.Machine

/-! ## The condition of a step -/

/-- `ConditionPassed()` (R91): TRUE for A32; for T32 the input `COND_PASSED` of this step. -/
def conditionPassed (iset : ISet) (s : State) : Bool :=
  match iset with
  | .a32 => true
  | .t32 => s.condInputs.headD true

/-- The input of this T32 step is used up; an A32 step has none (D5). -/
def useCondition (iset : ISet) (s : State) : State :=
  match iset with
  | .a32 => s
  | .t32 => { s with condInputs := s.condInputs.tail }

/-! ## G4: the condition table and the If-Then state (informative) -/

/-- The condition codes `<c>` (R77), with the encodings of G4's table. -/
inductive Cond where
  | eq | ne | cs | cc | mi | pl | vs | vc | hi | ls | ge | lt | gt | le | al
  deriving DecidableEq, Repr

/-- When a condition is true of the flags (G4's table). -/
def Cond.holds (c : Cond) (f : Flags) : Bool :=
  match c with
  | .eq => f.z
  | .ne => !f.z
  | .cs => f.c
  | .cc => !f.c
  | .mi => f.n
  | .pl => !f.n
  | .vs => f.v
  | .vc => !f.v
  | .hi => f.c && !f.z
  | .ls => !f.c || f.z
  | .ge => f.n == f.v
  | .lt => f.n != f.v
  | .gt => !f.z && f.n == f.v
  | .le => f.z || f.n != f.v
  | .al => true

/-- The condition with a 4-bit encoding; 1111 is also "always" (G4). -/
def Cond.ofBits (b : BitVec 4) : Cond :=
  match b.toNat with
  | 0 => .eq
  | 1 => .ne
  | 2 => .cs
  | 3 => .cc
  | 4 => .mi
  | 5 => .pl
  | 6 => .vs
  | 7 => .vc
  | 8 => .hi
  | 9 => .ls
  | 10 => .ge
  | 11 => .lt
  | 12 => .gt
  | 13 => .le
  | _ => .al

/-- The PE is inside an IT block when `ITSTATE[3:0]` is not 0000 (G4). -/
def inITBlock (it : BitVec 8) : Bool := it.extractLsb' 0 4 != 0#4

/-- The condition of the current T32 instruction: `ITSTATE[7:4]` inside an IT block, otherwise always (G4). -/
def itCondition (it : BitVec 8) : Cond :=
  if inITBlock it then Cond.ofBits (it.extractLsb' 4 4) else .al

/-- `ITSTATE` after a T32 instruction in a block: zero when `ITSTATE[2:0]` was 000, else `ITSTATE[4:0]` shifted left by
one (G4). Outside a block it stays. -/
def itAdvance (it : BitVec 8) : BitVec 8 :=
  if inITBlock it then
    if it.extractLsb' 0 3 = 0#3 then 0 else it.extractLsb' 5 3 ++ (it.extractLsb' 0 5 <<< 1)
  else it

/-- What G4 says `ConditionPassed()` answers in T32. The model's step takes the input `COND_PASSED` (D5, log entry 7)
and not this; Safety.lean says when the two agree. -/
def itConditionPassed (sys : Sys) : Bool := (itCondition sys.itstate).holds sys.flags

end Sys2Proof.Machine
end

