-- ==== Sys2Proof/Machine/Operands.lean ====
section
/-! DEFINITION. Operand forms: the two views of the SIMD&FP register file (R20 to R22), byte elements (R23), and the
data path of both operations as a slice of a concatenation (R94, R95). -/

namespace Sys2Proof.Machine

/-! ## The 64-bit view -/

/-- `D[r]` (R20). -/
def readD (r : DNum) (s : State) : DWord := s.d[r.toNat]'r.isLt

/-- `D[r] <- v` (R20). -/
def writeD (r : DNum) (v : DWord) (s : State) : State := { s with d := s.d.set r.toNat v r.isLt }

/-! ## The 128-bit view, derived from the `D` cells (R22, D7, log entry 5) -/

/-- The number of `D[2*q]`, the less significant half of `Q[q]` (R22). -/
def lowCell (q : QNum) : DNum := q ++ 0b0#1

/-- The number of `D[2*q+1]`, the more significant half of `Q[q]` (R22). -/
def highCell (q : QNum) : DNum := q ++ 0b1#1

/-- `Q[q] = D[2*q+1] : D[2*q]` (R22). -/
def readQ (q : QNum) (s : State) : QWord := readD (highCell q) s ++ readD (lowCell q) s

/-- `Q[q] <- v` is the two writes `D[2*q] <- v[63:0]` and `D[2*q+1] <- v[127:64]` (R22). -/
def writeQ (q : QNum) (v : QWord) (s : State) : State :=
  writeD (highCell q) (v.extractLsb' 64 64) (writeD (lowCell q) (v.extractLsb' 0 64) s)

/-- `r>>1`, the number of the quadword register that the even number `r` names (R66, R95). -/
def quadNum (r : DNum) : QNum := r.extractLsb' 1 4

/-! ## Byte elements -/

/-- `byte(v, i) = v[8*i+7 : 8*i]` (R23). -/
def byteOf {w : Nat} (v : BitVec w) (i : Nat) : Byte := v.extractLsb' (8 * i) 8

/-! ## The data path -/

/-- `position = 8 * UInt(imm4)` (R67). -/
def position (imm4 : BitVec 4) : Nat := 8 * imm4.toNat

/-- `(D[m]:D[n])<position+63:position>` on the values of the two sources (R94). -/
def extractDoubleword (vn vm : DWord) (imm4 : BitVec 4) : DWord := (vm ++ vn).extractLsb' (position imm4) 64

/-- `(Q[m>>1]:Q[n>>1])<position+127:position>` on the values of the two sources (R95). -/
def extractQuadword (vn vm : QWord) (imm4 : BitVec 4) : QWord := (vm ++ vn).extractLsb' (position imm4) 128

end Sys2Proof.Machine
end

