-- ==== Sys2Proof/Machine/Ops.lean ====
section
/-! DEFINITION. The named operations of a step: program text, fetch (R44), the enable check (R93), the two faults
(R120, R121), the advance of `pc` (R28) and the shared step of one VEXT (R90). -/

namespace Sys2Proof.Machine

/-! ## Program text (R41, R42) -/

/-- The byte at an address, none where `Mem` is not defined (R42). -/
def Memory.read : Memory → Nat → Option Byte
  | [], _ => none
  | (a, b) :: rest, x => if x = a then some b else Memory.read rest x

/-- Put one byte in its place. -/
def Memory.insert (x : Nat) (v : Byte) : Memory → Memory
  | [] => [(x, v)]
  | (a, b) :: rest =>
    if x < a then (x, v) :: (a, b) :: rest
    else if x = a then (x, v) :: rest
    else (a, b) :: Memory.insert x v rest

/-- The launcher's placing of one byte (R145); there is no address from 2^32 on (R41). No instruction writes memory
(R42). -/
def Memory.place (x : Nat) (v : Byte) (m : Memory) : Memory :=
  if x < Config.addressSpace then Memory.insert x v m else m

/-- The launcher's placing of bytes at increasing addresses. -/
def Memory.placeAll : Nat → List Byte → Memory → Memory
  | _, [], m => m
  | x, v :: vs, m => Memory.placeAll (x + 1) vs (Memory.place x v m)

/-! ## Fetch (R44) -/

/-- One byte of the program text, or a refusal that names the address (R42). -/
def fetchByte (m : Memory) (x : Nat) : Except Refusal Byte :=
  match Memory.read m x with
  | some b => .ok b
  | none => .error (.noProgramByte x)

/-- The alignment a fetch needs (R45): `pc[1:0] = 00` in A32, `pc[0] = 0` in T32. -/
def pcAligned (iset : ISet) (pc : Word) : Bool :=
  match iset with
  | .a32 => pc.extractLsb' 0 2 == 0#2
  | .t32 => pc.extractLsb' 0 1 == 0#1

/-- The refusal of a misaligned fetch (R44). -/
def misalignedFetch (iset : ISet) (pc : Word) : Refusal :=
  match iset with
  | .a32 => .misalignedA32Fetch pc
  | .t32 => .misalignedT32Fetch pc

/-- The instruction word at `pc` (R44). -/
def fetch (s : State) : Except Refusal Word :=
  if pcAligned s.iset s.pc then do
    let b0 ← fetchByte s.mem s.pc.toNat
    let b1 ← fetchByte s.mem (s.pc.toNat + 1)
    let b2 ← fetchByte s.mem (s.pc.toNat + 2)
    let b3 ← fetchByte s.mem (s.pc.toNat + 3)
    return wordOfBytes s.iset b0 b1 b2 b3
  else
    .error (misalignedFetch s.iset s.pc)

/-- `pc + 4` stays below 2^32 (R28). -/
def pcHasRoom (pc : Word) : Bool := decide (pc.toNat + Config.instrBytes < Config.addressSpace)

/-- What a step does before it executes (R146): at `END` there is no step; a `pc` about to wrap is refused; the word is
fetched and decoded, and a word that is no VEXT is refused. -/
def nextInstr (s : State) : Except Refusal Instr :=
  if s.pc = s.endAddr then .error .runEnded
  else if pcHasRoom s.pc then
    match fetch s with
    | .error r => .error r
    | .ok w =>
      match decode s.iset w with
      | .error _ => .error (.notVext w)
      | .ok i => .ok i
  else .error (.pcWouldWrap s.pc)

/-! ## The launcher's placing of one instruction (log entry 9) -/

/-- Place one instruction word where the next step fetches (R145): its bytes in the order of its instruction set, the
instruction set selected, and `END` moved behind it if it stood at it. A word of neither class keeps the instruction
set. -/
def placeInstr (w : Word) (s : State) : State :=
  let iset := (isetOfWord w).getD s.iset
  { s with
    iset := iset
    mem := Memory.placeAll s.pc.toNat (bytesOfWord iset w) s.mem
    endAddr := if s.endAddr = s.pc then s.pc + 4 else s.endAddr }

/-! ## The enable check (R93) -/

/-- The answer of a table: its first row for this `sys`, else the answer for all others. -/
def AdvSimdCheck.lookup (sys : Sys) (otherwise : AdvSimdAnswer) : List (Sys × AdvSimdAnswer) → AdvSimdAnswer
  | [] => otherwise
  | (k, a) :: rest => if sys = k then a else AdvSimdCheck.lookup sys otherwise rest

/-- `CheckAdvSIMDEnabled()`: the parameter `ADVSIMD_CHECK`, which reads only `sys` (R93, D4). -/
def advSimdAnswer (s : State) : AdvSimdAnswer := AdvSimdCheck.lookup s.sys s.advSimd.otherwise s.advSimd.rows

/-! ## Taking an exception: the two terminal faults (R120, R121, D2, D3) -/

/-- `raise UndefinedInstruction(word)` (R120): the run ends here; the fault records the word and the `pc`. -/
def raiseUndefined (i : Instr) (cause : UndefCause) (s : State) : Host.Outcome State Fault Refusal :=
  .fault (.undefinedInstruction (encode i) s.pc cause)

/-- `raise HypTrap(word)` (R121): the same shape. -/
def raiseHypTrap (i : Instr) (s : State) : Host.Outcome State Fault Refusal :=
  .fault (.hypTrap (encode i) s.pc)

/-! ## The shared step of one VEXT (R90) -/

/-- `pc <- pc + 4`, refused where it would reach 2^32 (R28, R98). -/
def complete (s : State) : Host.Outcome State Fault Refusal :=
  if pcHasRoom s.pc then .next { s with pc := s.pc + 4 } else .refused (.pcWouldWrap s.pc)

/-- The condition failed (R90, R91): a no-op that advances `pc`, but for an UNDEFINED word, where `COND_FAIL_UNDEF`
decides and `either` leaves it to a free choice (R92, log entry 8). -/
def conditionFailed (i : Instr) (s : State) : Host.Outcome State Fault Refusal :=
  match i.undefCause with
  | none => complete s
  | some cause =>
    match s.condFailUndef with
    | .nop => complete s
    | .undefined => raiseUndefined i cause s
    | .either =>
      if Config.eitherFaults s.freeChoices then raiseUndefined i cause s
      else complete { s with freeChoices := s.freeChoices + 1 }

/-- The condition passed (R90): the UNDEFINED tests, then the enable check, then the operation, then `pc`. -/
def conditionHeld (i : Instr) (operation : State → State) (s : State) : Host.Outcome State Fault Refusal :=
  match i.undefCause with
  | some cause => raiseUndefined i cause s
  | none =>
    match advSimdAnswer s with
    | .undefined => raiseUndefined i .advSimdDisabled s
    | .hypTrap => raiseHypTrap i s
    | .pass => complete (operation s)

/-- `step_VEXT` (R90) for an instruction and its operation on the registers. -/
def stepVext (i : Instr) (operation : State → State) (s : State) : Host.Outcome State Fault Refusal :=
  if conditionPassed i.iset s then conditionHeld i operation (useCondition i.iset s)
  else conditionFailed i (useCondition i.iset s)

end Sys2Proof.Machine
end

