-- ==== Sys2Proof/Machine/VectorExtract.lean ====
section
/-! DEFINITION. The meanings of the four encodings of VEXT (R100 to R103): each is the shared step of R90 around the
doubleword operation (R94) or the quadword operation (R95). -/

namespace Sys2Proof.Machine

/-- `D[d] = (D[m]:D[n])<position+63:position>` (R94); both sources are read from the state before the write (R96). -/
def doublewordOp (d n m : DNum) (imm4 : BitVec 4) (s : State) : State :=
  writeD d (extractDoubleword (readD n s) (readD m s) imm4) s

/-- `Q[d>>1] = (Q[m>>1]:Q[n>>1])<position+127:position>` (R95); both sources are read from the state before the write
(R96). -/
def quadwordOp (d n m : DNum) (imm4 : BitVec 4) (s : State) : State :=
  writeQ (quadNum d) (extractQuadword (readQ (quadNum n) s) (readQ (quadNum m) s) imm4) s

/-- VEXT_A1_D (R100). -/
def execVextA1D (d n m : DNum) (imm4 : BitVec 4) (s : State) : Host.Outcome State Fault Refusal :=
  stepVext (.vextA1D d n m imm4) (doublewordOp d n m imm4) s

/-- VEXT_A1_Q (R101). -/
def execVextA1Q (d n m : DNum) (imm4 : BitVec 4) (s : State) : Host.Outcome State Fault Refusal :=
  stepVext (.vextA1Q d n m imm4) (quadwordOp d n m imm4) s

/-- VEXT_T1_D (R102). -/
def execVextT1D (d n m : DNum) (imm4 : BitVec 4) (s : State) : Host.Outcome State Fault Refusal :=
  stepVext (.vextT1D d n m imm4) (doublewordOp d n m imm4) s

/-- VEXT_T1_Q (R103). -/
def execVextT1Q (d n m : DNum) (imm4 : BitVec 4) (s : State) : Host.Outcome State Fault Refusal :=
  stepVext (.vextT1Q d n m imm4) (quadwordOp d n m imm4) s

end Sys2Proof.Machine
end

