-- ==== Sys2Proof/Machine/Dispatch.lean ====
section
/-! DEFINITION. exec: one arm per constructor of Instr, each one call of its meaning. -/

namespace Sys2Proof.Machine

def exec (i : Instr) (s : State) : Host.Outcome State Fault Refusal :=
  match i with
  | .vextA1D d n m imm4 => Sys2Proof.Machine.execVextA1D d n m imm4 s
  | .vextA1Q d n m imm4 => Sys2Proof.Machine.execVextA1Q d n m imm4 s
  | .vextT1D d n m imm4 => Sys2Proof.Machine.execVextT1D d n m imm4 s
  | .vextT1Q d n m imm4 => Sys2Proof.Machine.execVextT1Q d n m imm4 s

end Sys2Proof.Machine
end

