-- ==== Sys2Proof/Machine/Step.lean ====
section
/-! DEFINITION. One step of the machine (R146), and the launcher's placing of one instruction (R145). -/

namespace Sys2Proof.Machine

/-- One instruction of the PE (R146): no step at `END`, a refusal, or the execution of the decoded instruction. -/
def step (s : State) : Host.Outcome State Fault Refusal :=
  match nextInstr s with
  | .error r => .refused r
  | .ok i => exec i s

/-- `s` with the instruction whose bits are `w` placed where the next step fetches it (log entries 9 and 10). -/
def State.withFetchWord (s : State) (nbits w : Nat) : State :=
  placeInstr (BitVec.ofNat 32 (w % 2 ^ nbits)) s

end Sys2Proof.Machine
end

