-- ==== Sys2Proof/Machine/Assembler.lean ====
section
/-! DEFINITION. The assembler and the printer of the `.8` forms (R75 to R83, D19), on the parts of a source line. The
alias "VEXT (multibyte elements)" is not accepted and never printed (R82). -/

namespace Sys2Proof.Machine

/-- `<q>` (R78): the narrow or the wide qualifier. -/
inductive Qualifier where
  | narrow
  | wide
  deriving DecidableEq, Repr

/-- The register operands of the two templates (R75, R76, R79): `D0` to `D31`, or `Q0` to `Q15`; the destination may be
left out (R81). -/
inductive AsmRegs where
  | doubleword (dd : Option (Fin 32)) (dn dm : Fin 32)
  | quadword (qd : Option (Fin 16)) (qn qm : Fin 16)
  deriving DecidableEq, Repr

/-- `VEXT{<c>}{<q>}.8 {<Dd>,} <Dn>, <Dm>, #<imm>` and its `Q` form (R75, R76). -/
structure AsmLine where
  cond : Option Cond
  qual : Option Qualifier
  regs : AsmRegs
  imm  : Nat
  deriving DecidableEq, Repr

/-- Why the assembler rejects a line. -/
inductive AsmError where
  /-- `.N`: VEXT has no 16-bit encoding (R78). -/
  | noNarrowEncoding
  /-- A32: "This encoding must be unconditional" (R77). -/
  | mustBeUnconditional
  /-- T32: a condition that the enclosing IT block does not supply (R77). -/
  | conditionNotFromITBlock
  /-- `<imm>` outside its range (R80). -/
  | immOutOfRange
  deriving DecidableEq, Repr

/-- The names of a condition (R77); `HS` is `CS` and `LO` is `CC`. The first is the one printed. -/
def Cond.names : Cond → List String
  | .eq => ["EQ"]
  | .ne => ["NE"]
  | .cs => ["CS", "HS"]
  | .cc => ["CC", "LO"]
  | .mi => ["MI"]
  | .pl => ["PL"]
  | .vs => ["VS"]
  | .vc => ["VC"]
  | .hi => ["HI"]
  | .ls => ["LS"]
  | .ge => ["GE"]
  | .lt => ["LT"]
  | .gt => ["GT"]
  | .le => ["LE"]
  | .al => ["AL"]

/-- The largest `<imm>` of a form (R80). -/
def AsmRegs.maxImm : AsmRegs → Nat
  | .doubleword _ _ _ => 7
  | .quadword _ _ _ => 15

/-- `D` names give `Q = 0`, `Q` names give `Q = 1` (R76). -/
def AsmRegs.isQuad : AsmRegs → Bool
  | .doubleword _ _ _ => false
  | .quadword _ _ _ => true

/-- The number in `D:Vd`: the destination's, or the first source's when it is left out (R79, R81). -/
def AsmRegs.rd : AsmRegs → Nat
  | .doubleword dd dn _ => (dd.getD dn).val
  | .quadword qd qn _ => 2 * (qd.getD qn).val

/-- The number in `N:Vn` (R79). -/
def AsmRegs.rn : AsmRegs → Nat
  | .doubleword _ dn _ => dn.val
  | .quadword _ qn _ => 2 * qn.val

/-- The number in `M:Vm` (R79). -/
def AsmRegs.rm : AsmRegs → Nat
  | .doubleword _ _ dm => dm.val
  | .quadword _ _ qm => 2 * qm.val

/-- The rule for `<c>` (R77): in A32 left out or `AL`; in T32 also the condition that the enclosing IT block supplies,
if there is one. -/
def condError (iset : ISet) (block : Option Cond) (c : Option Cond) : Option AsmError :=
  match c with
  | none => none
  | some .al => none
  | some c =>
    match iset with
    | .a32 => some .mustBeUnconditional
    | .t32 => if block = some c then none else some .conditionNotFromITBlock

/-- Assemble one line (R75 to R81, R83). `block` is the condition the enclosing IT block supplies to it, if any. -/
def assemble (iset : ISet) (block : Option Cond) (l : AsmLine) : Except AsmError Word :=
  match condError iset block l.cond with
  | some e => .error e
  | none =>
    if l.qual = some .narrow then .error .noNarrowEncoding
    else
      match encodeOperands iset l.regs.isQuad l.regs.rd l.regs.rn l.regs.rm l.imm with
      | some w => .ok w
      | none => .error .immOutOfRange

/-- The registers of an instruction by their names (R79): `D` names, or `Q` names for the quadword form. -/
def asmRegsOf (i : Instr) : AsmRegs :=
  if i.quadword then .quadword (some (quadNum i.d).toFin) (quadNum i.n).toFin (quadNum i.m).toFin
  else .doubleword (some i.d.toFin) i.n.toFin i.m.toFin

/-- The line a printer shows: the `.8` form with its destination (R82); none for an UNDEFINED word. -/
def disassemble (i : Instr) : Option AsmLine :=
  match i.undefCause with
  | some _ => none
  | none => some ⟨none, none, asmRegsOf i, i.imm4.toNat⟩

/-- The decimal digits of a number below 100, as R75's register names and immediates are written. -/
def decimal (k : Nat) : String :=
  let digits := ["0", "1", "2", "3", "4", "5", "6", "7", "8", "9"]
  if k < 10 then digits.getD k "" else digits.getD (k / 10) "" ++ digits.getD (k % 10) ""

/-- A line's registers as text (R75, R76). -/
def AsmRegs.text : AsmRegs → String
  | .doubleword dd dn dm =>
    (match dd with
      | some r => "D" ++ decimal r.val ++ ", "
      | none => "") ++ "D" ++ decimal dn.val ++ ", D" ++ decimal dm.val
  | .quadword qd qn qm =>
    (match qd with
      | some r => "Q" ++ decimal r.val ++ ", "
      | none => "") ++ "Q" ++ decimal qn.val ++ ", Q" ++ decimal qm.val

/-- A line as text: mnemonic, `<c>`, `<q>` and `.8` without space between them, then the operands (R75, R76). -/
def AsmLine.text (l : AsmLine) : String :=
  "VEXT"
    ++ (match l.cond with
      | some c => c.names.headD ""
      | none => "")
    ++ (match l.qual with
      | some .narrow => ".N"
      | some .wide => ".W"
      | none => "")
    ++ ".8 " ++ l.regs.text ++ ", #" ++ decimal l.imm

end Sys2Proof.Machine
end

