-- ==== Sys2Proof/Machine/Run.lean ====
section
/-! DEFINITION. The run of R146: steps until `pc = END`, a fault or a refusal. -/

namespace Sys2Proof.Machine

/-- How a run ends (R143, R146). -/
inductive RunEnd where
  /-- `pc = END`: the state is final. -/
  | final (s : State)
  /-- The run stopped at a fault and is not final. -/
  | faulted (f : Fault)
  /-- The model gives the situation no meaning. -/
  | refused (r : Refusal)
  /-- The given number of steps was not enough to end the run. -/
  | unfinished (s : State)
  deriving DecidableEq, Repr

/-- "apply step until s.pc = END (final), a fault (not final) or a refusal", for at most `k` steps (R146). -/
def run : Nat → State → RunEnd
  | 0, s => if s.pc = s.endAddr then .final s else .unfinished s
  | k + 1, s =>
    if s.pc = s.endAddr then .final s
    else
      match step s with
      | .next t => run k t
      | .fault f => .faulted f
      | .refused r => .refused r

end Sys2Proof.Machine
end

