-- ==== Sys2Proof/Safety.lean ====
section
/-! DEFINITION. The words claims are stated in: the launch premises of R142, final states (R143), the invariant every
step keeps, and what two states must share for one to stand for the other. -/

namespace Sys2Proof.Machine

/-! ## Launch premises (R142) -/

/-- `AdvSIMDEnabled`: `ADVSIMD_CHECK(s) = pass` (R141, R142). -/
abbrev State.AdvSimdEnabled (s : State) : Prop := advSimdAnswer s = .pass

/-- `NotInITBlock`: `COND_PASSED` is TRUE at every T32 step to come (R142). -/
abbrev State.NotInITBlock (s : State) : Prop := ∀ b ∈ s.condInputs, b = true

/-- `PcAligned` (R142). -/
abbrev State.PcAligned (s : State) : Prop := pcAligned s.iset s.pc = true

/-- `NoWrap`, of one step: `pc + 4` stays below 2^32 (R28, R142). -/
abbrev State.NoWrap (s : State) : Prop := pcHasRoom s.pc = true

/-- The number `END` of a launch with `count` instructions: `pc0 + 4 * (number of instructions)` (R142). -/
def State.programEnd (s : State) (count : Nat) : Nat := s.pc.toNat + Config.instrBytes * count

/-- `NoWrap`, of the run: `END < 2^32` for the `END` of a launch with `count` instructions (R142), so that `END` is a
32-bit address and no step of the run is refused for want of room (R28). -/
abbrev State.RunNoWrap (s : State) (count : Nat) : Prop := s.programEnd count < Config.addressSpace

/-- The program text holds a word at an address, in the byte order of R44. -/
abbrev Memory.HoldsWord (m : Memory) (iset : ISet) (x : Nat) (w : Word) : Prop :=
  Memory.read m x = (bytesOfWord iset w)[0]? ∧
  Memory.read m (x + 1) = (bytesOfWord iset w)[1]? ∧
  Memory.read m (x + 2) = (bytesOfWord iset w)[2]? ∧
  Memory.read m (x + 3) = (bytesOfWord iset w)[3]?

/-- `TextPlaced`, of one step: the program text holds a word at `pc` (R142). -/
abbrev State.TextAt (s : State) (w : Word) : Prop := Memory.HoldsWord s.mem s.iset s.pc.toNat w

/-- `TextPlaced` (R142): "`Mem` holds the program's words at `pc0 .. END-1`" in the byte order of R44, the `k`-th word at
`pc0 + 4 * k`, and "`END = pc0 + 4 * (number of instructions)`". `END` is the parameter `State.endAddr`, a 32-bit address;
that this number is below 2^32 is the premise `RunNoWrap`. -/
structure State.TextPlaced (s : State) (words : List Word) : Prop where
  text : ∀ k (h : k < words.length), Memory.HoldsWord s.mem s.iset (s.programEnd k) words[k]
  endAt : s.endAddr = BitVec.ofNat 32 (s.programEnd words.length)

/-- The launch premises of R142 for a program of these words: `NotInITBlock` is "automatic for `ISET = A32`", and
`NoAsyncException` holds of every run of the model, which takes no such exception (D15, log entry 12). -/
structure State.LaunchPremises (s : State) (words : List Word) : Prop where
  advSimdEnabled : s.AdvSimdEnabled
  notInITBlock : s.iset = .t32 → s.NotInITBlock
  pcAligned : s.PcAligned
  textPlaced : s.TextPlaced words
  noWrap : s.RunNoWrap words.length

/-- The T32 input `COND_PASSED` of the next step is what G4 says the If-Then state and the flags give. Informative: no
step depends on it (D5). -/
abbrev State.CondInputFromIT (s : State) : Prop := conditionPassed .t32 s = itConditionPassed s.sys

/-! ## Final states and the invariant -/

/-- The run has ended here (R143). -/
abbrev State.Final (s : State) : Prop := s.pc = s.endAddr

/-- What every step keeps: the program text in its canonical form, and the `pc` aligned for the instruction set
("alignment, once true, stays true", R45). -/
structure State.Inv (s : State) : Prop where
  wf : Memory.wf s.mem = true
  aligned : s.PcAligned

/-! ## Comparing states -/

/-- All of the state but the `D` cells, with given `D` cells in their place. -/
def State.withD (v : Vector DWord 32) (s : State) : State := { s with d := v }

/-- All of the state but `sys` and the enable check, with these in their place. -/
def State.withSys (sys : Sys) (check : AdvSimdCheck) (s : State) : State := { s with sys := sys, advSimd := check }

/-- Nothing but the `D` cells, the `pc`, the inputs `COND_PASSED` still to come and the model's own counter may differ
(R32). `sys` is one of the equal fields, `ITSTATE` in it: that a T32 step leaves `ITSTATE` is log entry 7's. -/
structure State.SameBut (s t : State) : Prop where
  iset : t.iset = s.iset
  sys : t.sys = s.sys
  mem : t.mem = s.mem
  endAddr : t.endAddr = s.endAddr
  advSimd : t.advSimd = s.advSimd
  condFailUndef : t.condFailUndef = s.condFailUndef

/-- `f` applied to the state of a next outcome; faults and refusals stay as they are. -/
def mapNext (f : State → State) : Host.Outcome State Fault Refusal → Host.Outcome State Fault Refusal
  | .next s => .next (f s)
  | .fault r => .fault r
  | .refused r => .refused r

end Sys2Proof.Machine
end

