-- ==== Sys2Proof/Certificates/Slice0/Obligations.lean ====
section
/-! DEFINITION. The statements for the provers: encoding and assembler, one VEXT and its frame, its faults, the step, and
whole runs. Where a statement rests on a choice of the spec or of the model, its docstring names the decision D<n> or
the log entry. -/

open Sys2Proof Sys2Proof.Machine

/-! ## Encoding -/

/-- Words of 95_test_vectors.md section 2.1 decode as listed there, under the instruction set listed there. -/
def Obligations.ListedWordsDecode : Prop :=
  decode .a32 0xF2B10302#32 = .ok (.vextA1D 0 1 2 3) ∧
  decode .t32 0xEFB10302#32 = .ok (.vextT1D 0 1 2 3) ∧
  decode .a32 0xF2B20344#32 = .ok (.vextA1Q 0 2 4 3) ∧
  decode .t32 0xEFB20344#32 = .ok (.vextT1Q 0 2 4 3) ∧
  decode .a32 0xF2F2096C#32 = .ok (.vextA1Q 16 2 28 9) ∧
  decode .a32 0xF2F0F50F#32 = .ok (.vextA1D 31 0 15 5) ∧
  decode .a32 0xF2B10312#32 = .error (.notVext 0xF2B10312#32) ∧
  decode .a32 0xEFB10302#32 = .error (.notVext 0xEFB10302#32) ∧
  decode .t32 0xF2B10302#32 = .error (.notVext 0xF2B10302#32)

/-- R83: decoding an encoded instruction gives it back, with every operand at every value, UNDEFINED ones too. -/
def Obligations.DecodeOfEncode : Prop :=
  ∀ i : Instr, decode i.iset (encode i) = .ok i

/-- R83: every word that decodes is the word of exactly the instruction it decodes to. -/
def Obligations.EncodeOfDecode : Prop :=
  ∀ (k : ISet) (w : Word) (i : Instr), decode k w = .ok i → i.iset = k ∧ encode i = w

/-- R65: a word is one of the four encodings exactly when its bits under the mask are that encoding's match. -/
def Obligations.MaskAndMatchSelect : Prop :=
  ∀ w : Word,
    ((∃ d n m imm4, decode .a32 w = .ok (.vextA1D d n m imm4)) ↔ w &&& 0xFFB00050#32 = 0xF2B00000#32) ∧
    ((∃ d n m imm4, decode .a32 w = .ok (.vextA1Q d n m imm4)) ↔ w &&& 0xFFB00050#32 = 0xF2B00040#32) ∧
    ((∃ d n m imm4, decode .t32 w = .ok (.vextT1D d n m imm4)) ↔ w &&& 0xFFB00050#32 = 0xEFB00000#32) ∧
    ((∃ d n m imm4, decode .t32 w = .ok (.vextT1Q d n m imm4)) ↔ w &&& 0xFFB00050#32 = 0xEFB00040#32)

/-- R64: within a class the bit `Q` selects the encoding. -/
def Obligations.QBitSelectsEncoding : Prop :=
  ∀ (k : ISet) (w : Word) (i : Instr), decode k w = .ok i →
    (k = .a32 → w.getLsbD 6 = false → ∃ d n m imm4, i = .vextA1D d n m imm4) ∧
    (k = .a32 → w.getLsbD 6 = true → ∃ d n m imm4, i = .vextA1Q d n m imm4) ∧
    (k = .t32 → w.getLsbD 6 = false → ∃ d n m imm4, i = .vextT1D d n m imm4) ∧
    (k = .t32 → w.getLsbD 6 = true → ∃ d n m imm4, i = .vextT1Q d n m imm4)

/-- R61: the diagram of format A1, box by box, and its first four bits. -/
def Obligations.FormatA1Diagram : Prop :=
  ∀ i : Instr, i.iset = .a32 →
    (encode i).extractLsb' 23 9 = 0b111100101#9 ∧ (encode i).extractLsb' 22 1 = i.d.extractLsb' 4 1 ∧
    (encode i).extractLsb' 20 2 = 0b11#2 ∧ (encode i).extractLsb' 16 4 = i.n.extractLsb' 0 4 ∧
    (encode i).extractLsb' 12 4 = i.d.extractLsb' 0 4 ∧ (encode i).extractLsb' 8 4 = i.imm4 ∧
    (encode i).extractLsb' 7 1 = i.n.extractLsb' 4 1 ∧ (encode i).getLsbD 6 = i.quadword ∧
    (encode i).extractLsb' 5 1 = i.m.extractLsb' 4 1 ∧ (encode i).extractLsb' 4 1 = 0b0#1 ∧
    (encode i).extractLsb' 0 4 = i.m.extractLsb' 0 4 ∧ (encode i).extractLsb' 28 4 = 0b1111#4

/-- R62: the diagram of format T1, box by box, its two halfwords in the order of their bytes, and every field where
format A1 has it. -/
def Obligations.FormatT1Diagram : Prop :=
  ∀ (d n m : DNum) (imm4 : BitVec 4) (q : Bool),
    let i := Instr.ofFields .t32 q d n m imm4
    let w := encode i
    w.extractLsb' 23 9 = 0b111011111#9 ∧ w.extractLsb' 22 1 = d.extractLsb' 4 1 ∧
    w.extractLsb' 20 2 = 0b11#2 ∧ w.extractLsb' 16 4 = n.extractLsb' 0 4 ∧
    w.extractLsb' 12 4 = d.extractLsb' 0 4 ∧ w.extractLsb' 8 4 = imm4 ∧
    w.extractLsb' 7 1 = n.extractLsb' 4 1 ∧ w.getLsbD 6 = q ∧
    w.extractLsb' 5 1 = m.extractLsb' 4 1 ∧ w.extractLsb' 4 1 = 0b0#1 ∧
    w.extractLsb' 0 4 = m.extractLsb' 0 4 ∧
    w.extractLsb' 16 16 = 0b111011111#9 ++ d.extractLsb' 4 1 ++ 0b11#2 ++ n.extractLsb' 0 4 ∧
    w.extractLsb' 0 16 = d.extractLsb' 0 4 ++ imm4 ++ n.extractLsb' 4 1 ++ BitVec.ofBool q ++ m.extractLsb' 4 1
      ++ 0b0#1 ++ m.extractLsb' 0 4 ∧
    w.extractLsb' 0 23 = (encode (Instr.ofFields .a32 q d n m imm4)).extractLsb' 0 23

/-- R67: `position`, `imm4` and `quadword_operation` of a decoded word, and the values `position` takes. -/
def Obligations.ImmediateIsByteCount : Prop :=
  (∀ (k : ISet) (w : Word) (i : Instr), decode k w = .ok i →
    i.imm4 = w.extractLsb' 8 4 ∧ position i.imm4 = 8 * (w.extractLsb' 8 4).toNat ∧ (i.quadword = true ↔ w.getLsbD 6 = true) ∧
    (i.undefCause = none → i.quadword = false → position i.imm4 ∈ [0, 8, 16, 24, 32, 40, 48, 56]) ∧
    (i.undefCause = none → i.quadword = true →
      position i.imm4 ∈ [0, 8, 16, 24, 32, 40, 48, 56, 64, 72, 80, 88, 96, 104, 112, 120])) ∧
  (∀ (k : ISet) (block : Option Cond) (l : AsmLine) (w : Word), assemble k block l = .ok w →
    (w.extractLsb' 8 4).toNat = l.imm)

/-- R66: the register numbers of a decoded word; in a defined quadword form they are twice the `Q` numbers the operation
uses. -/
def Obligations.RegisterNumbersOfWord : Prop :=
  ∀ (k : ISet) (w : Word) (i : Instr), decode k w = .ok i →
    i.d.toNat = 16 * (w.getLsbD 22).toNat + (w.extractLsb' 12 4).toNat ∧
    i.n.toNat = 16 * (w.getLsbD 7).toNat + (w.extractLsb' 16 4).toNat ∧
    i.m.toNat = 16 * (w.getLsbD 5).toNat + (w.extractLsb' 0 4).toNat ∧
    (i.quadword = true → i.undefCause = none →
      i.d.toNat = 2 * (quadNum i.d).toNat ∧ i.n.toNat = 2 * (quadNum i.n).toNat ∧ i.m.toNat = 2 * (quadNum i.m).toNat)

/-- R68, without its counts: with `Q = 1` a word of a class is UNDEFINED exactly when `Vd[0]`, `Vn[0]` or `Vm[0]` is 1,
that is when one of `d`, `n`, `m` is odd; `D`, `N`, `M` do not enter. -/
def Obligations.QuadwordUndefinedTest : Prop :=
  ∀ (k : ISet) (w : Word) (i : Instr), decode k w = .ok i → w.getLsbD 6 = true →
    (i.undefCause = some .oddQuadRegister ↔
      (w.getLsbD 12 = true ∨ w.getLsbD 16 = true ∨ w.getLsbD 0 = true)) ∧
    (i.undefCause = none ↔ (i.d.toNat % 2 = 0 ∧ i.n.toNat % 2 = 0 ∧ i.m.toNat % 2 = 0)) ∧
    (i.undefCause = none ∨ i.undefCause = some .oddQuadRegister)

/-- R69, without its counts: with `Q = 0` a word of a class is UNDEFINED exactly when `imm4[3] = 1`, that is when
`UInt(imm4)` is above 7. -/
def Obligations.DoublewordUndefinedTest : Prop :=
  ∀ (k : ISet) (w : Word) (i : Instr), decode k w = .ok i → w.getLsbD 6 = false →
    (i.undefCause = some .doublewordImmediate ↔ w.getLsbD 11 = true) ∧
    (i.undefCause = none ↔ i.imm4.toNat ≤ 7) ∧
    (i.undefCause = none ∨ i.undefCause = some .doublewordImmediate)

/-- The Decode text's UNDEFINED tests (R68, R69) and the assembler's operand ranges (R79, R80) draw the same line (S1 and
S2 of 95_test_vectors.md). -/
def Obligations.UndefinedExactlyIllFormed : Prop :=
  ∀ i : Instr, i.undefCause = none ↔ i.wellFormed = true

/-- R60, R73: no word is a VEXT in both instruction sets. -/
def Obligations.ClassesShareNoWord : Prop :=
  ∀ (w : Word) (i : Instr), (decode .a32 w = .ok i → decode .t32 w = .error (.notVext w)) ∧
    (decode .t32 w = .ok i → decode .a32 w = .error (.notVext w))

/-- R74 (general knowledge of the spec, G8): the first halfword of a T1 word marks a 32-bit instruction. -/
def Obligations.T1WordsAreWide : Prop :=
  ∀ (w : Word) (i : Instr), decode .t32 w = .ok i → t32IsWide (w.extractLsb' 16 16) = true

/-- R44 (D11, log entry 13): which bits of a word stand at which of its four addresses; read back in the same instruction
set these bytes are that word, and they decode as the word does. -/
def Obligations.BytesSpellTheWord : Prop :=
  ∀ (k : ISet) (w : Word), ∃ b0 b1 b2 b3 : Byte,
    bytesOfWord k w = [b0, b1, b2, b3] ∧
    (k = .a32 → b0 = w.extractLsb' 0 8 ∧ b1 = w.extractLsb' 8 8 ∧ b2 = w.extractLsb' 16 8 ∧ b3 = w.extractLsb' 24 8) ∧
    (k = .t32 → b0 = w.extractLsb' 16 8 ∧ b1 = w.extractLsb' 24 8 ∧ b2 = w.extractLsb' 0 8 ∧ b3 = w.extractLsb' 8 8) ∧
    wordOfBytes k b0 b1 b2 b3 = w ∧
    ∀ rest, decodeBytes k ([b0, b1, b2, b3] ++ rest) = (decode k w).map (·, rest)

/-- R83: the encoder of the operands answers exactly when its requirements hold, its word decodes to those operands and
is not UNDEFINED, and every defined word is the image of exactly one operand tuple. -/
def Obligations.OperandEncoderInverts : Prop :=
  (∀ (k : ISet) (q : Bool) (rd rn rm imm : Nat),
    (operandsEncodable q rd rn rm imm = false → encodeOperands k q rd rn rm imm = none) ∧
    (operandsEncodable q rd rn rm imm = true → ∃ w, encodeOperands k q rd rn rm imm = some w ∧
      ∃ i, decode k w = .ok i ∧ i.quadword = q ∧ i.d.toNat = rd ∧ i.n.toNat = rn ∧ i.m.toNat = rm ∧
        i.imm4.toNat = imm ∧ i.undefCause = none)) ∧
  (∀ (k : ISet) (w : Word) (i : Instr), decode k w = .ok i → i.undefCause = none →
    ∀ (q : Bool) (rd rn rm imm : Nat), encodeOperands k q rd rn rm imm = some w ↔
      (q = i.quadword ∧ rd = i.d.toNat ∧ rn = i.n.toNat ∧ rm = i.m.toNat ∧ imm = i.imm4.toNat))

/-! ## The assembler -/

/-- R80: the assembler takes `<imm>` from 0 to 7 (64-bit) or 0 to 15 (128-bit), encodes it in `imm4`, where it is the
location of the result in bytes, and rejects a value outside the range; the words for such values are UNDEFINED (8 to 15
in the 64-bit form) or do not exist (`imm4` holds at most 15). Lines with an inadmissible `<c>` or `<q>` are
`AssemblerRejections`. -/
def Obligations.AssemblerImmediateRange : Prop :=
  (∀ (k : ISet) (block : Option Cond) (l : AsmLine), condError k block l.cond = none → l.qual ≠ some .narrow →
    (l.imm ≤ l.regs.maxImm → ∃ w, assemble k block l = .ok w ∧ (fieldImm4 w).toNat = l.imm ∧
      position (fieldImm4 w) = 8 * l.imm) ∧
    (l.regs.maxImm < l.imm → assemble k block l = .error .immOutOfRange)) ∧
  (∀ dd dn dm, (AsmRegs.doubleword dd dn dm).maxImm = 7) ∧ (∀ qd qn qm, (AsmRegs.quadword qd qn qm).maxImm = 15) ∧
  (∀ (k : ISet) (w : Word) (i : Instr), decode k w = .ok i →
    (fieldImm4 w).toNat ≤ 15 ∧
    (i.quadword = false → 7 < (fieldImm4 w).toNat → i.undefCause = some .doublewordImmediate))

/-- R77, R78 (general knowledge of the spec but for "This encoding must be unconditional", log entry 19): an A32 line
with a condition other than `AL` is rejected, and so is a T32 line with one that the IT block does not supply, and a line
with `.N`; any other `<c>` and `<q>` change nothing. -/
def Obligations.AssemblerRejections : Prop :=
  ∀ (block : Option Cond) (l : AsmLine),
    (∀ c, l.cond = some c → c ≠ .al → assemble .a32 block l = .error .mustBeUnconditional) ∧
    (∀ c, l.cond = some c → c ≠ .al → block ≠ some c → assemble .t32 block l = .error .conditionNotFromITBlock) ∧
    (∀ k : ISet, (l.cond = none ∨ l.cond = some .al ∨ (k = .t32 ∧ l.cond = block)) →
      (l.qual = some .narrow → assemble k block l = .error .noNarrowEncoding) ∧
      (l.qual ≠ some .narrow → assemble k block l = assemble k none ⟨none, none, l.regs, l.imm⟩))

/-- R79, R82: every defined instruction is printed, as a line with a destination, without condition and qualifier, and that
line assembles to the instruction's word. That the `.8` form is the one printed is D19 (log entry 19). -/
def Obligations.AssembleOfDisassemble : Prop :=
  ∀ i : Instr, i.undefCause = none → ∃ l, disassemble i = some l ∧
    l.cond = none ∧ l.qual = none ∧
    (i.quadword = false → ∃ dd dn dm, l.regs = .doubleword (some dd) dn dm) ∧
    (i.quadword = true → ∃ qd qn qm, l.regs = .quadword (some qd) qn qm) ∧
    assemble i.iset none l = .ok (encode i)

/-- R81 (general knowledge of the spec, D19): a destination left out is the first source. -/
def Obligations.OmittedDestinationIsFirstSource : Prop :=
  ∀ (k : ISet) (block : Option Cond) (c : Option Cond) (q : Option Qualifier) (imm : Nat),
    (∀ dn dm, assemble k block ⟨c, q, .doubleword none dn dm, imm⟩ =
      assemble k block ⟨c, q, .doubleword (some dn) dn dm, imm⟩) ∧
    (∀ qn qm, assemble k block ⟨c, q, .quadword none qn qm, imm⟩ =
      assemble k block ⟨c, q, .quadword (some qn) qn qm, imm⟩)

/-- R77 and G4 (general knowledge of the spec): the rows of the condition table with even encodings, the odd ones as their
inverses, 1110 and 1111 as always; and outside an IT block the condition is always true. No step depends on it (log
entry 7). -/
def Obligations.ConditionTable : Prop :=
  (∀ f : Flags,
    ((Cond.ofBits 0b0000#4).holds f = true ↔ f.z = true) ∧
    ((Cond.ofBits 0b0010#4).holds f = true ↔ f.c = true) ∧
    ((Cond.ofBits 0b0100#4).holds f = true ↔ f.n = true) ∧
    ((Cond.ofBits 0b0110#4).holds f = true ↔ f.v = true) ∧
    ((Cond.ofBits 0b1000#4).holds f = true ↔ f.c = true ∧ f.z = false) ∧
    ((Cond.ofBits 0b1010#4).holds f = true ↔ f.n = f.v) ∧
    ((Cond.ofBits 0b1100#4).holds f = true ↔ f.z = false ∧ f.n = f.v) ∧
    (Cond.ofBits 0b1110#4).holds f = true ∧ (Cond.ofBits 0b1111#4).holds f = true) ∧
  (∀ (b : BitVec 3) (f : Flags), b ≠ 0b111#3 →
    (Cond.ofBits (b ++ 0b1#1)).holds f = !(Cond.ofBits (b ++ 0b0#1)).holds f) ∧
  (∀ (it : BitVec 8) (sys : Sys), it.extractLsb' 0 4 = 0#4 → itConditionPassed { sys with itstate := it } = true)

/-! ## One VEXT: where it completes and what it leaves -/

/-- R100, R101: a defined A32 VEXT with Advanced SIMD enabled completes with its operation done and `pc` advanced. That it
needs no condition is `ConditionPassed()` being always TRUE in A32 (R91's general knowledge, D5, log entry 14, PRESUMED and
unsafe for this very claim). The advance and its room are the spec's choice D9 (log entry 15). -/
def Obligations.A32VextCompletes : Prop :=
  ∀ (d n m : DNum) (imm4 : BitVec 4) (s : State), s.AdvSimdEnabled → s.NoWrap →
    (imm4.toNat ≤ 7 → exec (.vextA1D d n m imm4) s = .next
      { s with
        pc := s.pc + 4
        d := s.d.set d.toNat ((readD m s ++ readD n s).extractLsb' (8 * imm4.toNat) 64) d.isLt }) ∧
    (d.toNat % 2 = 0 → n.toNat % 2 = 0 → m.toNat % 2 = 0 → exec (.vextA1Q d n m imm4) s = .next
      { writeQ (quadNum d) ((readQ (quadNum m) s ++ readQ (quadNum n) s).extractLsb' (8 * imm4.toNat) 128) s with
        pc := s.pc + 4 })

/-- R102, R103: the same in T32 when `COND_PASSED` is TRUE, which uses up that input of the step (D5, log entry 7). The
advance and its room are D9 (log entry 15). That all else is as before holds `ITSTATE` too, a claim that log entry 7 calls
unsafe inside an IT block. -/
def Obligations.T32VextCompletes : Prop :=
  ∀ (d n m : DNum) (imm4 : BitVec 4) (s : State), s.condInputs.headD true = true → s.AdvSimdEnabled → s.NoWrap →
    (imm4.toNat ≤ 7 → exec (.vextT1D d n m imm4) s = .next
      { s with
        pc := s.pc + 4
        condInputs := s.condInputs.tail
        d := s.d.set d.toNat ((readD m s ++ readD n s).extractLsb' (8 * imm4.toNat) 64) d.isLt }) ∧
    (d.toNat % 2 = 0 → n.toNat % 2 = 0 → m.toNat % 2 = 0 → exec (.vextT1Q d n m imm4) s = .next
      { writeQ (quadNum d) ((readQ (quadNum m) s ++ readQ (quadNum n) s).extractLsb' (8 * imm4.toNat) 128) s with
        pc := s.pc + 4
        condInputs := s.condInputs.tail })

/-- R94: the doubleword operation of both instruction sets: `D[d]` becomes the 64 bits at `position` of `D[m] : D[n]`,
which lie inside it, and that is a logical right shift. -/
def Obligations.DoublewordResult : Prop :=
  ∀ (i : Instr) (s : State), i.quadword = false → i.imm4.toNat ≤ 7 → conditionPassed i.iset s = true →
    s.AdvSimdEnabled → s.NoWrap →
    let c : BitVec 128 := readD i.m s ++ readD i.n s
    c.extractLsb' 0 64 = readD i.n s ∧ c.extractLsb' 64 64 = readD i.m s ∧ position i.imm4 + 63 ≤ 119 ∧
    ∃ t, exec i s = .next t ∧
      readD i.d t = c.extractLsb' (position i.imm4) 64 ∧
      readD i.d t = (c >>> (8 * i.imm4.toNat)).extractLsb' 0 64

/-- R95: the quadword operation of both instruction sets, on the `Q` views and on the `D` cells. The cells rest on R22
(general knowledge of the spec, D7, log entry 5). -/
def Obligations.QuadwordResult : Prop :=
  ∀ (i : Instr) (s : State), i.quadword = true → i.d.toNat % 2 = 0 → i.n.toNat % 2 = 0 → i.m.toNat % 2 = 0 →
    conditionPassed i.iset s = true → s.AdvSimdEnabled → s.NoWrap →
    let c : BitVec 256 := readD (i.m + 1) s ++ readD i.m s ++ readD (i.n + 1) s ++ readD i.n s
    position i.imm4 + 127 ≤ 247 ∧
    ∃ t, exec i s = .next t ∧
      readQ (quadNum i.d) t = (readQ (quadNum i.m) s ++ readQ (quadNum i.n) s).extractLsb' (position i.imm4) 128 ∧
      readD i.d t = c.extractLsb' (position i.imm4) 64 ∧
      readD (i.d + 1) t = c.extractLsb' (position i.imm4 + 64) 64

/-- R97, doubleword: byte `i` of the result is byte `i + imm` of the first source, or byte `i + imm - 8` of the second. -/
def Obligations.DoublewordLanes : Prop :=
  ∀ (i : Instr) (s : State), i.quadword = false → i.imm4.toNat ≤ 7 → conditionPassed i.iset s = true →
    s.AdvSimdEnabled → s.NoWrap →
    ∃ t, exec i s = .next t ∧ ∀ j < 8, byteOf (readD i.d t) j =
      if j + i.imm4.toNat < 8 then byteOf (readD i.n s) (j + i.imm4.toNat)
      else byteOf (readD i.m s) (j + i.imm4.toNat - 8)

/-- R97, quadword. -/
def Obligations.QuadwordLanes : Prop :=
  ∀ (i : Instr) (s : State), i.quadword = true → i.d.toNat % 2 = 0 → i.n.toNat % 2 = 0 → i.m.toNat % 2 = 0 →
    conditionPassed i.iset s = true → s.AdvSimdEnabled → s.NoWrap →
    ∃ t, exec i s = .next t ∧ ∀ j < 16, byteOf (readQ (quadNum i.d) t) j =
      if j + i.imm4.toNat < 16 then byteOf (readQ (quadNum i.n) s) (j + i.imm4.toNat)
      else byteOf (readQ (quadNum i.m) s) (j + i.imm4.toNat - 16)

/-- R99 (a) and (d): with `imm = 0` the result is the first operand, and with equal sources it is that operand rotated
right by `imm` bytes; whichever register is the destination (R96). -/
def Obligations.CopyAndRotate : Prop :=
  ∀ (i : Instr) (s : State), i.undefCause = none → conditionPassed i.iset s = true → s.AdvSimdEnabled → s.NoWrap →
    ∃ t, exec i s = .next t ∧
      (i.quadword = false →
        (i.imm4 = 0 → readD i.d t = readD i.n s) ∧
        (i.n = i.m → readD i.d t = (readD i.n s).rotateRight (8 * i.imm4.toNat))) ∧
      (i.quadword = true →
        (i.imm4 = 0 → readQ (quadNum i.d) t = readQ (quadNum i.n) s) ∧
        (i.n = i.m → readQ (quadNum i.d) t = (readQ (quadNum i.n) s).rotateRight (8 * i.imm4.toNat)))

/-- R104's arithmetic reading of both operations, as unsigned integers. -/
def Obligations.ResultAsArithmetic : Prop :=
  ∀ (i : Instr) (s : State), i.undefCause = none → conditionPassed i.iset s = true → s.AdvSimdEnabled → s.NoWrap →
    ∃ t, exec i s = .next t ∧
      (i.quadword = false → (readD i.d t).toNat =
        ((readD i.m s).toNat * 2 ^ 64 + (readD i.n s).toNat) / 2 ^ (8 * i.imm4.toNat) % 2 ^ 64) ∧
      (i.quadword = true → (readQ (quadNum i.d) t).toNat =
        ((readQ (quadNum i.m) s).toNat * 2 ^ 128 + (readQ (quadNum i.n) s).toNat) / 2 ^ (8 * i.imm4.toNat) % 2 ^ 128)

/-- R22 (general knowledge of the spec, D7, log entry 5): the two views are one storage. -/
def Obligations.ViewsShareStorage : Prop :=
  ∀ (q : QNum) (k : DNum) (v : QWord) (x : DWord) (s : State),
    (readQ q s).extractLsb' 0 64 = readD (lowCell q) s ∧ (readQ q s).extractLsb' 64 64 = readD (highCell q) s ∧
    (lowCell q).toNat = 2 * q.toNat ∧ (highCell q).toNat = 2 * q.toNat + 1 ∧
    readQ q (writeQ q v s) = v ∧
    writeQ q v s = writeD (highCell q) (v.extractLsb' 64 64) (writeD (lowCell q) (v.extractLsb' 0 64) s) ∧
    (k.toNat / 2 ≠ q.toNat → readQ q (writeD k x s) = readQ q s ∧ readD k (writeQ q v s) = readD k s) ∧
    readQ q (writeD (lowCell q) x s) = readD (highCell q) s ++ x ∧
    readQ q (writeD (highCell q) x s) = x ++ readD (lowCell q) s

/-- The frame of R32 for the doubleword forms VEXT_A1_D and VEXT_T1_D: a next state has every `D` register but `D[d]` as
before, and all of them when the condition failed; `ISET`, `sys` (the flags, every control register, the modes, the
general registers), `END`, `ADVSIMD_CHECK`, `COND_FAIL_UNDEF` and every byte of memory as before; an A32 form also the
inputs `COND_PASSED` to come (a T32 form uses one up, log entry 7) and the model's counter (log entry 8). `pc + 4` is the
spec's own decision D9 (log entry 15). That `ITSTATE`, a part of `sys`, stays is R32's word and log entry 7: inside an IT
block a chip advances it (G4). -/
def Obligations.DoublewordFrame : Prop :=
  ∀ (i : Instr) (s t : State), i.quadword = false → exec i s = .next t →
    (∀ r : DNum, r ≠ i.d → readD r t = readD r s) ∧
    (conditionPassed i.iset s = false → ∀ r : DNum, readD r t = readD r s) ∧
    s.SameBut t ∧ (∀ a, Memory.read t.mem a = Memory.read s.mem a) ∧ t.pc = s.pc + 4 ∧
    (i.iset = .a32 → t.condInputs = s.condInputs ∧ t.freeChoices = s.freeChoices) ∧
    (i.iset = .t32 → t.condInputs = s.condInputs.tail)

/-- The frame of R32 for the quadword forms VEXT_A1_Q and VEXT_T1_Q: as `DoublewordFrame`, with the two cells of `Q[d>>1]`
written. Which two `D` cells these are is the spec's own decision D7 (log entry 5). `pc + 4` is D9 (log entry 15);
`ITSTATE` held is log entry 7; of the launch parameters `END`, `ADVSIMD_CHECK` and `COND_FAIL_UNDEF` are as before, and a
T32 form uses up one input `COND_PASSED` (log entry 7). -/
def Obligations.QuadwordFrame : Prop :=
  ∀ (i : Instr) (s t : State), i.quadword = true → exec i s = .next t →
    (∀ r : DNum, r.toNat / 2 ≠ i.d.toNat / 2 → readD r t = readD r s) ∧
    (conditionPassed i.iset s = false → ∀ r : DNum, readD r t = readD r s) ∧
    s.SameBut t ∧ (∀ a, Memory.read t.mem a = Memory.read s.mem a) ∧ t.pc = s.pc + 4 ∧
    (i.iset = .a32 → t.condInputs = s.condInputs ∧ t.freeChoices = s.freeChoices) ∧
    (i.iset = .t32 → t.condInputs = s.condInputs.tail)

/-! ## The condition and the faults -/

/-- R91: a defined T32 VEXT whose condition fails writes no register and raises nothing, whatever the enable check would
answer. That it advances `pc` by 4 is the spec's decision D9 (log entry 15); that its input leaves a list of inputs is
the model's form of `COND_PASSED` (D5, log entry 7), and so is `ITSTATE` held, here inside an IT block, where a chip
advances it (G4, log entry 7). -/
def Obligations.FailedConditionIsNop : Prop :=
  ∀ (i : Instr) (s : State), i.iset = .t32 → i.undefCause = none → s.condInputs.headD true = false → s.NoWrap →
    exec i s = .next { s with pc := s.pc + 4, condInputs := s.condInputs.tail }

/-- R92 (D6): an UNDEFINED T32 word whose condition fails does what `COND_FAIL_UNDEF` says; under `either` both outcomes
are admitted, and the free choice of log entry 8 takes one. That the raised fault carries the word, the `pc` and the cause
is D2 (log entry 11, DEDUCED). In the no-op state `pc + 4` is D9 (log entry 15), and the input used up and `ITSTATE` held
are the model's form of D5 (log entry 7). -/
def Obligations.FailedConditionOfUndefinedWord : Prop :=
  ∀ (i : Instr) (c : UndefCause) (s : State), i.iset = .t32 → i.undefCause = some c →
    s.condInputs.headD true = false → s.NoWrap →
    let nop : State := { s with pc := s.pc + 4, condInputs := s.condInputs.tail }
    let raised : Host.Outcome State Fault Refusal := .fault (.undefinedInstruction (encode i) s.pc c)
    (s.condFailUndef = .nop → exec i s = .next nop) ∧
    (s.condFailUndef = .undefined → exec i s = raised) ∧
    (s.condFailUndef = .either →
      exec i s = raised ∨ exec i s = .next { nop with freeChoices := s.freeChoices + 1 })

/-- R92 (a), R123: an UNDEFINED word whose condition passed raises `UndefinedInstruction` whatever the enable check would
answer. That the fault carries the word, the `pc` and the cause is not these rules' but D2 (log entry 11, DEDUCED). -/
def Obligations.UndefinedTestBeforeEnableCheck : Prop :=
  ∀ (i : Instr) (c : UndefCause) (s : State), conditionPassed i.iset s = true → i.undefCause = some c →
    exec i s = .fault (.undefinedInstruction (encode i) s.pc c)

/-- R93 (D4), R120 U3, R121: a defined VEXT whose condition passed faults as the enable check answers. That the faults are
terminal outcomes which carry the word and the `pc`, and the first its cause, is D2 and D3 (log entry 11, DEDUCED). -/
def Obligations.EnableCheckFaults : Prop :=
  ∀ (i : Instr) (s : State), conditionPassed i.iset s = true → i.undefCause = none →
    (advSimdAnswer s = .undefined → exec i s = .fault (.undefinedInstruction (encode i) s.pc .advSimdDisabled)) ∧
    (advSimdAnswer s = .hypTrap → exec i s = .fault (.hypTrap (encode i) s.pc))

/-- R120 to R122: a VEXT faults in the situations listed and in no other, and then with the fault listed. Only for an
UNDEFINED word with a failed condition under `COND_FAIL_UNDEF = either` a fault is admitted and not certain (D6, log
entry 8). That each fault carries the word and the `pc`, and `UndefinedInstruction` its cause, is D2 and D3 (log entry 11,
DEDUCED). -/
def Obligations.FaultsAreExactlyThese : Prop :=
  ∀ (i : Instr) (s : State) (f : Fault),
    (exec i s = .fault f →
      (∃ c, i.undefCause = some c ∧ f = .undefinedInstruction (encode i) s.pc c ∧
        (conditionPassed i.iset s = true ∨ s.condFailUndef ≠ .nop)) ∨
      (conditionPassed i.iset s = true ∧ i.undefCause = none ∧ advSimdAnswer s = .undefined ∧
        f = .undefinedInstruction (encode i) s.pc .advSimdDisabled) ∨
      (conditionPassed i.iset s = true ∧ i.undefCause = none ∧ advSimdAnswer s = .hypTrap ∧
        f = .hypTrap (encode i) s.pc)) ∧
    ((∃ c, i.undefCause = some c ∧ f = .undefinedInstruction (encode i) s.pc c ∧
        (conditionPassed i.iset s = true ∨ s.condFailUndef = .undefined)) ∨
      (conditionPassed i.iset s = true ∧ i.undefCause = none ∧ advSimdAnswer s = .undefined ∧
        f = .undefinedInstruction (encode i) s.pc .advSimdDisabled) ∨
      (conditionPassed i.iset s = true ∧ i.undefCause = none ∧ advSimdAnswer s = .hypTrap ∧
        f = .hypTrap (encode i) s.pc) → exec i s = .fault f) ∧
    (i.iset = .a32 → i.undefCause = none → s.AdvSimdEnabled → exec i s ≠ .fault f)

/-! ## The step -/

/-- R146: away from `END` (D17, log entry 4) and the top of the address space (D9, log entry 15), when the word at `pc`
decodes, a step is exec of the decoded instruction at that very state: a step adds nothing around exec. -/
def Obligations.StepRunsDecodedInstruction : Prop :=
  ∀ (s : State) (w : Word) (i : Instr), s.pc ≠ s.endAddr → s.NoWrap → fetch s = .ok w → decode s.iset w = .ok i →
    step s = exec i s

/-- R44 (D11, log entry 13): where the program text holds a word in the byte order of the instruction set, fetch reads that
word; and whatever four bytes it holds at `pc`, fetch reads the word in which they stand where that order puts them. -/
def Obligations.FetchReadsPlacedText : Prop :=
  (∀ (s : State) (w : Word), s.PcAligned → s.TextAt w → fetch s = .ok w) ∧
  (∀ (s : State) (b0 b1 b2 b3 : Byte), s.PcAligned →
    Memory.read s.mem s.pc.toNat = some b0 → Memory.read s.mem (s.pc.toNat + 1) = some b1 →
    Memory.read s.mem (s.pc.toNat + 2) = some b2 → Memory.read s.mem (s.pc.toNat + 3) = some b3 →
    ∃ w, fetch s = .ok w ∧
      (s.iset = .a32 →
        w.extractLsb' 0 8 = b0 ∧ w.extractLsb' 8 8 = b1 ∧ w.extractLsb' 16 8 = b2 ∧ w.extractLsb' 24 8 = b3) ∧
      (s.iset = .t32 →
        w.extractLsb' 16 8 = b0 ∧ w.extractLsb' 24 8 = b1 ∧ w.extractLsb' 0 8 = b2 ∧ w.extractLsb' 8 8 = b3))

/-- R44, R45 (D12, log entry 18), R42 (D13, log entry 3): a misaligned fetch is refused, and so is a fetch from an address
without a byte. -/
def Obligations.FetchRefusals : Prop :=
  ∀ s : State,
    (s.iset = .a32 → s.pc.toNat % 4 ≠ 0 → fetch s = .error (.misalignedA32Fetch s.pc)) ∧
    (s.iset = .t32 → s.pc.toNat % 2 ≠ 0 → fetch s = .error (.misalignedT32Fetch s.pc)) ∧
    (s.PcAligned → ∀ k < 4, (∀ j < k, Memory.read s.mem (s.pc.toNat + j) ≠ none) →
      Memory.read s.mem (s.pc.toNat + k) = none → fetch s = .error (.noProgramByte (s.pc.toNat + k)))

/-- R146: a step refuses in these situations, in this order, and in no other: at `END` (D17, log entry 4), for want of room
(D9, log entry 15), at fetch (D12, D13, log entries 3 and 18) and for a word that is no VEXT (D1, log entry 16). -/
def Obligations.StepRefusals : Prop :=
  ∀ (s : State) (r : Refusal), step s = .refused r ↔
    (s.pc = s.endAddr ∧ r = .runEnded) ∨
    (s.pc ≠ s.endAddr ∧ ¬ s.NoWrap ∧ r = .pcWouldWrap s.pc) ∨
    (s.pc ≠ s.endAddr ∧ s.NoWrap ∧ fetch s = .error r) ∨
    (s.pc ≠ s.endAddr ∧ s.NoWrap ∧ ∃ w, fetch s = .ok w ∧ (∀ i, decode s.iset w ≠ .ok i) ∧ r = .notVext w)

/-- R120, R121 (D2, D3, log entry 11, DEDUCED): the word and the `pc` a step's fault records are the word fetched and the
`pc` fetched from. -/
def Obligations.FaultRecordsFetchedWord : Prop :=
  ∀ (s : State) (f : Fault), step s = .fault f →
    ∃ w, fetch s = .ok w ∧ (f = .hypTrap w s.pc ∨ ∃ c, f = .undefinedInstruction w s.pc c)

/-- R142 (D16): under the launch premises a step on a defined instruction's bytes is that instruction's next state: the step
is never refused and never faults. The room above `pc` is D9 (log entry 15); the condition is log entry 14's in A32 and the
inputs of log entry 7 in T32. -/
def Obligations.PremisesGiveProgress : Prop :=
  ∀ (s : State) (i : Instr), i.iset = s.iset → i.wellFormed = true → s.pc ≠ s.endAddr → s.NoWrap → s.PcAligned →
    s.TextAt (encode i) → s.AdvSimdEnabled → s.NotInITBlock →
    ∃ t, step s = .next t ∧ exec i s = .next t ∧ t.AdvSimdEnabled ∧ t.NotInITBlock ∧ t.PcAligned

/-- The launcher's placing of one instruction (log entry 9): the very next step runs exactly it. -/
def Obligations.PlacedInstructionRuns : Prop :=
  ∀ (s : State) (i : Instr), pcAligned i.iset s.pc = true → s.NoWrap →
    step (s.withFetchWord 32 (encode i).toNat) = exec i (s.withFetchWord 32 (encode i).toNat)

/-! ## Whole-machine rules -/

/-- The launch state `State.reset` (the model's choice, log entries 1 to 4 and 6 to 8; the spec has no reset value). -/
def Obligations.ResetLaunchState : Prop :=
  (∀ r : DNum, readD r State.reset = 0) ∧ State.reset.pc = 0 ∧ State.reset.iset = .a32 ∧
  (∀ a, Memory.read State.reset.mem a = none) ∧ State.reset.AdvSimdEnabled ∧ State.reset.NotInITBlock ∧
  State.reset.PcAligned ∧ ¬ State.reset.Final

/-- The invariant holds at `State.reset`. -/
def Obligations.ResetMeetsInvariant : Prop := State.reset.Inv

/-- Every step keeps the invariant: canonical program text (D13, log entry 3), and "alignment, once true, stays true" (R45,
D12, log entry 18). -/
def Obligations.StepKeepsInvariant : Prop :=
  ∀ s t : State, s.Inv → step s = .next t → t.Inv

/-- The launcher's placing keeps the invariant at an aligned `pc`. -/
def Obligations.PlacingKeepsInvariant : Prop :=
  ∀ (s : State) (nbits w : Nat), s.Inv → pcAligned (s.withFetchWord nbits w).iset s.pc = true →
    (s.withFetchWord nbits w).Inv

/-- R32, R51, R141: no step writes `sys`, `ISET`, memory, `END`, `ADVSIMD_CHECK` or `COND_FAIL_UNDEF`, so Advanced SIMD, once
enabled, stays enabled. The launch parameter `COND_PASSED` is a list of inputs (D5, log entry 7): an A32 step leaves it, a
T32 step uses its first input up. `ITSTATE` stays with the rest of `sys`, a claim that log entry 7 calls unsafe inside an
IT block. The model's counter moves only where a free choice is drawn (log entry 8). -/
def Obligations.StepLeavesSystemState : Prop :=
  ∀ s t : State, step s = .next t →
    s.SameBut t ∧ advSimdAnswer t = advSimdAnswer s ∧ (s.NotInITBlock → t.NotInITBlock) ∧
    (s.iset = .a32 → t.condInputs = s.condInputs ∧ t.freeChoices = s.freeChoices) ∧
    (s.iset = .t32 → t.condInputs = s.condInputs.tail) ∧
    (t.freeChoices = s.freeChoices ∨
      (t.freeChoices = s.freeChoices + 1 ∧ s.condFailUndef = .either ∧ conditionPassed s.iset s = false))

/-- R109: two states that differ in the `D` cells only take steps that differ in the `D` cells only: no data reaches the
`pc`, a fault or a refusal. -/
def Obligations.DataNeverSteers : Prop :=
  ∀ (s : State) (u v : Vector DWord 32),
    mapNext (State.withD u) (step (s.withD v)) = mapNext (State.withD u) (step s)

/-- R108, with `COND_PASSED` held as an input apart from `sys` (D5, D18, log entry 7; R31 says that `ConditionPassed()`
reads such state too): `sys` reaches a step through the answer of the enable check alone. With the same answer and the same
inputs, a step is the same in every mode and Security state, and with every flag and `ITSTATE` beside those inputs. -/
def Obligations.SysOnlyThroughEnableCheck : Prop :=
  ∀ (s : State) (sys : Sys) (check : AdvSimdCheck), advSimdAnswer (s.withSys sys check) = advSimdAnswer s →
    step (s.withSys sys check) = mapNext (State.withSys sys check) (step s)

/-- R109: the result of a completed VEXT depends on its two sources alone. -/
def Obligations.ResultFromSourcesOnly : Prop :=
  ∀ (i : Instr) (s t s' t' : State), i.undefCause = none → conditionPassed i.iset s = true →
    conditionPassed i.iset s' = true → exec i s = .next t → exec i s' = .next t' →
    (i.quadword = false → readD i.n s' = readD i.n s → readD i.m s' = readD i.m s → readD i.d t' = readD i.d t) ∧
    (i.quadword = true → readQ (quadNum i.n) s' = readQ (quadNum i.n) s →
      readQ (quadNum i.m) s' = readQ (quadNum i.m) s → readQ (quadNum i.d) t' = readQ (quadNum i.d) t)

/-- R143 (D17), from any state: after `k` steps that all answer next, `pc` is `4 * k` higher, without wrapping (D9, log
entry 15), and nothing has changed but the `D` cells, `pc`, the inputs `COND_PASSED` to come and the model's counter;
`ITSTATE` stays by log entry 7. -/
def Obligations.KStepsAdvanceFourK : Prop :=
  ∀ (k : Nat) (s t : State), Sys2Proof.core.run k s = .next t →
    t.pc.toNat = s.pc.toNat + 4 * k ∧ s.SameBut t ∧ (s.Inv → t.Inv)

/-- R146: "always ends (no loop is expressible)": no run, from any state, goes on for 2^30 steps. It rests on the `pc` of D9
(log entry 15) and the end of a run of D17. -/
def Obligations.EveryRunEnds : Prop :=
  ∀ (k : Nat) (s t : State), 2 ^ 30 ≤ k → run k s ≠ .unfinished t

/-- R143 (D17): a run that ends normally ends at `END`, the number of steps being a quarter of the way there (D9, log entry
15). What is as before holds `ITSTATE` too (log entry 7). -/
def Obligations.FinalRunEndsAtEnd : Prop :=
  ∀ (k : Nat) (s t : State), run k s = .final t →
    t.pc = s.endAddr ∧ s.SameBut t ∧ ∃ j ≤ k, Sys2Proof.core.run j s = .next t ∧ s.endAddr.toNat = s.pc.toNat + 4 * j

/-- R142, R143, R146 (D9, D16, D17): under the launch premises a program of defined instructions, in whatever state the rest
of the machine is, ends at `END` after exactly as many steps as it has instructions, its `k`-th step being exec of its
`k`-th instruction. The condition is log entry 14's in A32 and the inputs of log entry 7 in T32. -/
def Obligations.PremisesRunToEnd : Prop :=
  ∀ (s : State) (prog : List Instr), (∀ i ∈ prog, i.iset = s.iset ∧ i.wellFormed = true) →
    s.LaunchPremises (prog.map encode) →
    (∃ t, run prog.length s = .final t ∧ Sys2Proof.core.run prog.length s = .next t ∧ t.pc = s.endAddr ∧
      t.pc.toNat = s.pc.toNat + 4 * prog.length ∧ s.SameBut t) ∧
    ∀ k (h : k < prog.length), ∃ u v, Sys2Proof.core.run k s = .next u ∧ u.pc ≠ s.endAddr ∧
      exec prog[k] u = .next v ∧ Sys2Proof.core.run (k + 1) s = .next v

/-- R143 (D9, D17): "a program of `k` VEXT instructions placed at `pc0` ends after exactly `k` steps with `pc = pc0 + 4*k`,
or stops earlier at its first fault", UNDEFINED instructions and every answer of the enable check and of the condition
included: such a run is never refused. -/
def Obligations.PlacedProgramEndsOrFaults : Prop :=
  ∀ (s : State) (prog : List Instr), (∀ i ∈ prog, i.iset = s.iset) →
    s.PcAligned → s.TextPlaced (prog.map encode) → s.RunNoWrap prog.length →
    (∃ t, run prog.length s = .final t ∧ Sys2Proof.core.run prog.length s = .next t ∧ t.pc = s.endAddr ∧
      t.pc.toNat = s.pc.toNat + 4 * prog.length) ∨
    (∃ k, ∃ h : k < prog.length, ∃ u f, Sys2Proof.core.run k s = .next u ∧ u.pc.toNat = s.pc.toNat + 4 * k ∧
      exec prog[k] u = .fault f ∧ run prog.length s = .faulted f)
end

