-- ==== Sys2Proof/Laws/Decode.lean ====
section
/-! SUPPORT. The bits of every concatenation of the encoding, one lemma each, and what the decoder does. -/

namespace Sys2Proof

/-! ## Bits -/

/-- The bits of an encoded word, field by field from bit 0 up (R61, R62). -/
theorem encodeFields_getLsbD (k : ISet) (q : Bool) (d n m : DNum) (imm4 : BitVec 4) (j : Nat) :
    (encodeFields k q d n m imm4).getLsbD j =
      if j < 4 then m.getLsbD j
      else if j < 5 then false
      else if j < 6 then m.getLsbD 4
      else if j < 7 then q
      else if j < 8 then n.getLsbD 4
      else if j < 12 then imm4.getLsbD (j - 8)
      else if j < 16 then d.getLsbD (j - 12)
      else if j < 20 then n.getLsbD (j - 16)
      else if j < 22 then true
      else if j < 23 then d.getLsbD 4
      else (fixedTop k).getLsbD (j - 23) := by
  show BitVec.getLsbD (w := 9 + 1 + 2 + 4 + 4 + 4 + 1 + 1 + 1 + 1 + 4)
    (fixedTop k ++ d.extractLsb' 4 1 ++ 0b11#2 ++ n.extractLsb' 0 4 ++ d.extractLsb' 0 4 ++ imm4
      ++ n.extractLsb' 4 1 ++ BitVec.ofBool q ++ m.extractLsb' 4 1 ++ 0b0#1 ++ m.extractLsb' 0 4) j = _
  by_cases hj : j < 32
  · simp only [BitVec.getLsbD_append, BitVec.getLsbD_extractLsb', BitVec.getLsbD_ofBool]
    have h : j ∈ List.range 32 := List.mem_range.mpr hj
    simp only [show List.range 32 = [0, 1, 2, 3, 4, 5, 6, 7, 8, 9, 10, 11, 12, 13, 14, 15, 16, 17, 18, 19, 20, 21,
      22, 23, 24, 25, 26, 27, 28, 29, 30, 31] from rfl, List.mem_cons, List.not_mem_nil, or_false] at h
    rcases h with h | h | h | h | h | h | h | h | h | h | h | h | h | h | h | h | h | h | h | h | h | h | h | h | h |
      h | h | h | h | h | h | h <;> subst h <;> simp
  · have h1 : (fixedTop k).getLsbD (j - 23) = false := BitVec.getLsbD_of_ge _ _ (by omega)
    rw [BitVec.getLsbD_of_ge _ _ (by omega)]
    split_ifs <;> first | omega | exact h1.symm

theorem fieldD_getLsbD (w : Word) (j : Nat) :
    (fieldD w).getLsbD j = if j < 4 then w.getLsbD (12 + j) else decide (j < 5) && w.getLsbD 22 := by
  show BitVec.getLsbD (w := 1 + 4) (w.extractLsb' 22 1 ++ w.extractLsb' 12 4) j = _
  rw [BitVec.getLsbD_append, BitVec.getLsbD_extractLsb', BitVec.getLsbD_extractLsb']
  by_cases h : j < 4
  · simp [h]
  · by_cases h5 : j < 5
    · obtain rfl : j = 4 := by omega
      simp
    · have : ¬ j - 4 < 1 := by omega
      simp [h, h5, this]

theorem fieldN_getLsbD (w : Word) (j : Nat) :
    (fieldN w).getLsbD j = if j < 4 then w.getLsbD (16 + j) else decide (j < 5) && w.getLsbD 7 := by
  show BitVec.getLsbD (w := 1 + 4) (w.extractLsb' 7 1 ++ w.extractLsb' 16 4) j = _
  rw [BitVec.getLsbD_append, BitVec.getLsbD_extractLsb', BitVec.getLsbD_extractLsb']
  by_cases h : j < 4
  · simp [h]
  · by_cases h5 : j < 5
    · obtain rfl : j = 4 := by omega
      simp
    · have : ¬ j - 4 < 1 := by omega
      simp [h, h5, this]

theorem fieldM_getLsbD (w : Word) (j : Nat) :
    (fieldM w).getLsbD j = if j < 4 then w.getLsbD j else decide (j < 5) && w.getLsbD 5 := by
  show BitVec.getLsbD (w := 1 + 4) (w.extractLsb' 5 1 ++ w.extractLsb' 0 4) j = _
  rw [BitVec.getLsbD_append, BitVec.getLsbD_extractLsb', BitVec.getLsbD_extractLsb']
  by_cases h : j < 4
  · simp [h]
  · by_cases h5 : j < 5
    · obtain rfl : j = 4 := by omega
      simp
    · have : ¬ j - 4 < 1 := by omega
      simp [h, h5, this]

theorem fieldImm4_getLsbD (w : Word) (j : Nat) :
    (fieldImm4 w).getLsbD j = (decide (j < 4) && w.getLsbD (8 + j)) := by
  rw [fieldImm4, BitVec.getLsbD_extractLsb']

/-! ## The decoder -/

@[simp] theorem ofFields_iset (k : ISet) (q : Bool) (d n m : DNum) (imm4 : BitVec 4) :
    (Instr.ofFields k q d n m imm4).iset = k := by cases k <;> cases q <;> rfl
@[simp] theorem ofFields_quadword (k : ISet) (q : Bool) (d n m : DNum) (imm4 : BitVec 4) :
    (Instr.ofFields k q d n m imm4).quadword = q := by cases k <;> cases q <;> rfl
@[simp] theorem ofFields_d (k : ISet) (q : Bool) (d n m : DNum) (imm4 : BitVec 4) :
    (Instr.ofFields k q d n m imm4).d = d := by cases k <;> cases q <;> rfl
@[simp] theorem ofFields_n (k : ISet) (q : Bool) (d n m : DNum) (imm4 : BitVec 4) :
    (Instr.ofFields k q d n m imm4).n = n := by cases k <;> cases q <;> rfl
@[simp] theorem ofFields_m (k : ISet) (q : Bool) (d n m : DNum) (imm4 : BitVec 4) :
    (Instr.ofFields k q d n m imm4).m = m := by cases k <;> cases q <;> rfl
@[simp] theorem ofFields_imm4 (k : ISet) (q : Bool) (d n m : DNum) (imm4 : BitVec 4) :
    (Instr.ofFields k q d n m imm4).imm4 = imm4 := by cases k <;> cases q <;> rfl

/-- An instruction is the one its own parts select (R64). -/
theorem ofFields_eta (i : Instr) : Instr.ofFields i.iset i.quadword i.d i.n i.m i.imm4 = i := by cases i <;> rfl

/-- The decoder answers an instruction exactly on the words of the class (R71). -/
theorem decode_ok_iff {k : ISet} {w : Word} {i : Instr} :
    decode k w = .ok i ↔ w &&& classMask = classBase k ∧
      i = Instr.ofFields k (w.getLsbD 6) (fieldD w) (fieldN w) (fieldM w) (fieldImm4 w) := by
  unfold decode
  split
  · simp_all [eq_comm]
  · simp_all

/-- The decoder rejects every other word, by name (R73). -/
theorem decode_error_iff {k : ISet} {w : Word} {e : DecodeReject} :
    decode k w = .error e ↔ w &&& classMask ≠ classBase k ∧ e = .notVext w := by
  unfold decode
  split
  · simp_all
  · simp_all [eq_comm]

/-! ## The UNDEFINED tests as ranges -/

theorem getLsbD_three_eq_false_iff (b : BitVec 4) : b.getLsbD 3 = false ↔ b.toNat ≤ 7 := by
  revert b
  decide

theorem getLsbD_zero_eq_false_iff (r : DNum) : r.getLsbD 0 = false ↔ r.toNat % 2 = 0 := by
  revert r
  decide

/-- A doubleword form is defined exactly when its immediate is at most 7 (R69). -/
theorem undefCause_none_doubleword {i : Instr} (h : i.quadword = false) :
    i.undefCause = none ↔ i.imm4.toNat ≤ 7 := by
  rw [← getLsbD_three_eq_false_iff]
  simp only [Instr.undefCause, h]
  by_cases h3 : i.imm4.getLsbD 3 = true <;> simp_all

/-- A quadword form is defined exactly when its register numbers are even (R68). -/
theorem undefCause_none_quadword {i : Instr} (h : i.quadword = true) :
    i.undefCause = none ↔ i.d.toNat % 2 = 0 ∧ i.n.toNat % 2 = 0 ∧ i.m.toNat % 2 = 0 := by
  rw [← getLsbD_zero_eq_false_iff, ← getLsbD_zero_eq_false_iff, ← getLsbD_zero_eq_false_iff]
  simp only [Instr.undefCause, h]
  generalize i.d.getLsbD 0 = a, i.n.getLsbD 0 = b, i.m.getLsbD 0 = c, i.imm4.getLsbD 3 = e
  revert a b c e
  decide

end Sys2Proof
end

