-- ==== Sys2Proof/Laws/Memory.lean ====
section
/-! SUPPORT. The laws of the program text: a byte placed is the byte read, every other byte stays, and placing keeps
the canonical form. -/

namespace Sys2Proof.Machine

@[simp] theorem Memory.read_insert_same (x : Nat) (v : Byte) (m : Memory) :
    Memory.read (Memory.insert x v m) x = some v := by
  induction m with
  | nil => simp [Memory.insert, Memory.read]
  | cons e rest ih =>
    obtain ⟨a, b⟩ := e
    simp only [Memory.insert]
    split
    · simp [Memory.read]
    · split
      · simp [Memory.read]
      · rename_i h
        simp [Memory.read, h, ih]

theorem Memory.read_insert_other {x y : Nat} (h : y ≠ x) (v : Byte) (m : Memory) :
    Memory.read (Memory.insert x v m) y = Memory.read m y := by
  induction m with
  | nil => simp [Memory.insert, Memory.read, h]
  | cons e rest ih =>
    obtain ⟨a, b⟩ := e
    simp only [Memory.insert]
    split
    · simp [Memory.read, h]
    · split
      · rename_i hxa
        subst hxa
        simp [Memory.read, h]
      · simp [Memory.read, ih]

/-- The canonical form from a lower bound on is that from any smaller bound. -/
theorem Memory.wfFrom_mono {lo lo' : Nat} (h : lo' ≤ lo) {m : Memory} (hm : Memory.wfFrom lo m = true) :
    Memory.wfFrom lo' m = true := by
  cases m with
  | nil => rfl
  | cons e rest =>
    obtain ⟨a, b⟩ := e
    simp only [Memory.wfFrom, Bool.and_eq_true, decide_eq_true_eq] at hm ⊢
    exact ⟨⟨by omega, hm.1.2⟩, hm.2⟩

theorem Memory.wfFrom_insert {lo x : Nat} (hlo : lo ≤ x) (hx : x < Config.addressSpace) (v : Byte) {m : Memory}
    (hm : Memory.wfFrom lo m = true) : Memory.wfFrom lo (Memory.insert x v m) = true := by
  induction m generalizing lo with
  | nil => simp [Memory.insert, Memory.wfFrom, hlo, hx]
  | cons e rest ih =>
    obtain ⟨a, b⟩ := e
    simp only [Memory.wfFrom, Bool.and_eq_true, decide_eq_true_eq] at hm
    simp only [Memory.insert]
    split
    · simp only [Memory.wfFrom, Bool.and_eq_true, decide_eq_true_eq]
      exact ⟨⟨hlo, hx⟩, ⟨by omega, hm.1.2⟩, hm.2⟩
    · split
      · rename_i hxa
        subst hxa
        simp only [Memory.wfFrom, Bool.and_eq_true, decide_eq_true_eq]
        exact ⟨⟨hlo, hx⟩, hm.2⟩
      · simp only [Memory.wfFrom, Bool.and_eq_true, decide_eq_true_eq]
        exact ⟨hm.1, ih (by omega) hm.2⟩

/-- Placing a byte keeps the canonical form. -/
theorem Memory.wf_place (x : Nat) (v : Byte) {m : Memory} (hm : Memory.wf m = true) :
    Memory.wf (Memory.place x v m) = true := by
  unfold Memory.place
  split
  · exact Memory.wfFrom_insert (Nat.zero_le x) ‹_› v hm
  · exact hm

/-- Placing bytes keeps the canonical form. -/
theorem Memory.wf_placeAll (vs : List Byte) (x : Nat) {m : Memory} (hm : Memory.wf m = true) :
    Memory.wf (Memory.placeAll x vs m) = true := by
  induction vs generalizing x m with
  | nil => exact hm
  | cons v vs ih => exact ih (x + 1) (Memory.wf_place x v hm)

theorem Memory.read_place_same {x : Nat} (hx : x < Config.addressSpace) (v : Byte) (m : Memory) :
    Memory.read (Memory.place x v m) x = some v := by
  simp [Memory.place, hx]

theorem Memory.read_place_other {x y : Nat} (h : y ≠ x) (v : Byte) (m : Memory) :
    Memory.read (Memory.place x v m) y = Memory.read m y := by
  unfold Memory.place
  split
  · exact Memory.read_insert_other h v m
  · rfl

/-- Placing bytes leaves every address outside them as it was. -/
theorem Memory.read_placeAll_outside {y x : Nat} {vs : List Byte} (h : y < x ∨ x + vs.length ≤ y) (m : Memory) :
    Memory.read (Memory.placeAll x vs m) y = Memory.read m y := by
  induction vs generalizing x m with
  | nil => rfl
  | cons v vs ih =>
    simp only [List.length_cons] at h
    rw [Memory.placeAll, ih (by omega), Memory.read_place_other (by omega)]

/-- Placing bytes makes each the byte read at its address. -/
theorem Memory.read_placeAll_inside {x k : Nat} {vs : List Byte} (hk : k < vs.length)
    (hx : x + vs.length ≤ Config.addressSpace) (m : Memory) :
    Memory.read (Memory.placeAll x vs m) (x + k) = vs[k]? := by
  induction vs generalizing x k m with
  | nil => simp at hk
  | cons v vs ih =>
    simp only [List.length_cons] at hk hx
    rw [Memory.placeAll]
    cases k with
    | zero =>
      show Memory.read _ x = some v
      rw [Memory.read_placeAll_outside (Or.inl (Nat.lt_add_one x)), Memory.read_place_same (by omega)]
    | succ k =>
      have h := ih (x := x + 1) (k := k) (by omega) (by omega) (Memory.place x v m)
      rw [show x + (k + 1) = x + 1 + k by omega, h]
      rfl

/-- Reset lists no byte, which is the canonical form. -/
theorem reset_mem_wf : Memory.wf State.reset.mem = true := rfl

end Sys2Proof.Machine
end

