-- ==== Sys2Proof/Laws/State.lean ====
section
/-! SUPPORT. One lemma per field per named update of the state, each true by rfl, so that no later proof unfolds an
update. -/

namespace Sys2Proof.Machine

/-! ## writeD -/

@[simp] theorem writeD_pc (r : DNum) (v : DWord) (s : State) : (writeD r v s).pc = s.pc := rfl
@[simp] theorem writeD_iset (r : DNum) (v : DWord) (s : State) : (writeD r v s).iset = s.iset := rfl
@[simp] theorem writeD_sys (r : DNum) (v : DWord) (s : State) : (writeD r v s).sys = s.sys := rfl
@[simp] theorem writeD_mem (r : DNum) (v : DWord) (s : State) : (writeD r v s).mem = s.mem := rfl
@[simp] theorem writeD_endAddr (r : DNum) (v : DWord) (s : State) : (writeD r v s).endAddr = s.endAddr := rfl
@[simp] theorem writeD_advSimd (r : DNum) (v : DWord) (s : State) : (writeD r v s).advSimd = s.advSimd := rfl
@[simp] theorem writeD_condInputs (r : DNum) (v : DWord) (s : State) : (writeD r v s).condInputs = s.condInputs := rfl
@[simp] theorem writeD_condFailUndef (r : DNum) (v : DWord) (s : State) :
    (writeD r v s).condFailUndef = s.condFailUndef := rfl
@[simp] theorem writeD_freeChoices (r : DNum) (v : DWord) (s : State) :
    (writeD r v s).freeChoices = s.freeChoices := rfl

/-! ## writeQ -/

@[simp] theorem writeQ_pc (q : QNum) (v : QWord) (s : State) : (writeQ q v s).pc = s.pc := rfl
@[simp] theorem writeQ_iset (q : QNum) (v : QWord) (s : State) : (writeQ q v s).iset = s.iset := rfl
@[simp] theorem writeQ_sys (q : QNum) (v : QWord) (s : State) : (writeQ q v s).sys = s.sys := rfl
@[simp] theorem writeQ_mem (q : QNum) (v : QWord) (s : State) : (writeQ q v s).mem = s.mem := rfl
@[simp] theorem writeQ_endAddr (q : QNum) (v : QWord) (s : State) : (writeQ q v s).endAddr = s.endAddr := rfl
@[simp] theorem writeQ_advSimd (q : QNum) (v : QWord) (s : State) : (writeQ q v s).advSimd = s.advSimd := rfl
@[simp] theorem writeQ_condInputs (q : QNum) (v : QWord) (s : State) : (writeQ q v s).condInputs = s.condInputs := rfl
@[simp] theorem writeQ_condFailUndef (q : QNum) (v : QWord) (s : State) :
    (writeQ q v s).condFailUndef = s.condFailUndef := rfl
@[simp] theorem writeQ_freeChoices (q : QNum) (v : QWord) (s : State) :
    (writeQ q v s).freeChoices = s.freeChoices := rfl

/-! ## useCondition -/

@[simp] theorem useCondition_a32 (s : State) : useCondition .a32 s = s := rfl
@[simp] theorem useCondition_d (k : ISet) (s : State) : (useCondition k s).d = s.d := by cases k <;> rfl
@[simp] theorem useCondition_pc (k : ISet) (s : State) : (useCondition k s).pc = s.pc := by cases k <;> rfl
@[simp] theorem useCondition_iset (k : ISet) (s : State) : (useCondition k s).iset = s.iset := by cases k <;> rfl
@[simp] theorem useCondition_sys (k : ISet) (s : State) : (useCondition k s).sys = s.sys := by cases k <;> rfl
@[simp] theorem useCondition_mem (k : ISet) (s : State) : (useCondition k s).mem = s.mem := by cases k <;> rfl
@[simp] theorem useCondition_endAddr (k : ISet) (s : State) : (useCondition k s).endAddr = s.endAddr := by
  cases k <;> rfl
@[simp] theorem useCondition_advSimd (k : ISet) (s : State) : (useCondition k s).advSimd = s.advSimd := by
  cases k <;> rfl
@[simp] theorem useCondition_condFailUndef (k : ISet) (s : State) :
    (useCondition k s).condFailUndef = s.condFailUndef := by cases k <;> rfl
@[simp] theorem useCondition_freeChoices (k : ISet) (s : State) :
    (useCondition k s).freeChoices = s.freeChoices := by cases k <;> rfl
@[simp] theorem useCondition_t32_condInputs (s : State) :
    (useCondition .t32 s).condInputs = s.condInputs.tail := rfl

/-! ## The two operations -/

@[simp] theorem doublewordOp_pc (d n m : DNum) (imm4 : BitVec 4) (s : State) :
    (doublewordOp d n m imm4 s).pc = s.pc := rfl
@[simp] theorem doublewordOp_iset (d n m : DNum) (imm4 : BitVec 4) (s : State) :
    (doublewordOp d n m imm4 s).iset = s.iset := rfl
@[simp] theorem doublewordOp_sys (d n m : DNum) (imm4 : BitVec 4) (s : State) :
    (doublewordOp d n m imm4 s).sys = s.sys := rfl
@[simp] theorem doublewordOp_mem (d n m : DNum) (imm4 : BitVec 4) (s : State) :
    (doublewordOp d n m imm4 s).mem = s.mem := rfl
@[simp] theorem doublewordOp_endAddr (d n m : DNum) (imm4 : BitVec 4) (s : State) :
    (doublewordOp d n m imm4 s).endAddr = s.endAddr := rfl
@[simp] theorem doublewordOp_advSimd (d n m : DNum) (imm4 : BitVec 4) (s : State) :
    (doublewordOp d n m imm4 s).advSimd = s.advSimd := rfl
@[simp] theorem doublewordOp_condInputs (d n m : DNum) (imm4 : BitVec 4) (s : State) :
    (doublewordOp d n m imm4 s).condInputs = s.condInputs := rfl
@[simp] theorem doublewordOp_condFailUndef (d n m : DNum) (imm4 : BitVec 4) (s : State) :
    (doublewordOp d n m imm4 s).condFailUndef = s.condFailUndef := rfl
@[simp] theorem doublewordOp_freeChoices (d n m : DNum) (imm4 : BitVec 4) (s : State) :
    (doublewordOp d n m imm4 s).freeChoices = s.freeChoices := rfl

@[simp] theorem quadwordOp_pc (d n m : DNum) (imm4 : BitVec 4) (s : State) :
    (quadwordOp d n m imm4 s).pc = s.pc := rfl
@[simp] theorem quadwordOp_iset (d n m : DNum) (imm4 : BitVec 4) (s : State) :
    (quadwordOp d n m imm4 s).iset = s.iset := rfl
@[simp] theorem quadwordOp_sys (d n m : DNum) (imm4 : BitVec 4) (s : State) :
    (quadwordOp d n m imm4 s).sys = s.sys := rfl
@[simp] theorem quadwordOp_mem (d n m : DNum) (imm4 : BitVec 4) (s : State) :
    (quadwordOp d n m imm4 s).mem = s.mem := rfl
@[simp] theorem quadwordOp_endAddr (d n m : DNum) (imm4 : BitVec 4) (s : State) :
    (quadwordOp d n m imm4 s).endAddr = s.endAddr := rfl
@[simp] theorem quadwordOp_advSimd (d n m : DNum) (imm4 : BitVec 4) (s : State) :
    (quadwordOp d n m imm4 s).advSimd = s.advSimd := rfl
@[simp] theorem quadwordOp_condInputs (d n m : DNum) (imm4 : BitVec 4) (s : State) :
    (quadwordOp d n m imm4 s).condInputs = s.condInputs := rfl
@[simp] theorem quadwordOp_condFailUndef (d n m : DNum) (imm4 : BitVec 4) (s : State) :
    (quadwordOp d n m imm4 s).condFailUndef = s.condFailUndef := rfl
@[simp] theorem quadwordOp_freeChoices (d n m : DNum) (imm4 : BitVec 4) (s : State) :
    (quadwordOp d n m imm4 s).freeChoices = s.freeChoices := rfl

end Sys2Proof.Machine
end

