-- ==== Sys2Proof/Laws/Operands.lean ====
section
/-! SUPPORT. The laws of the register file: what is written is read back, and every other cell stays. -/

namespace Sys2Proof.Machine

@[simp] theorem readD_writeD_same (r : DNum) (v : DWord) (s : State) : readD r (writeD r v s) = v := by
  simp [readD, writeD]

theorem readD_writeD_other {r k : DNum} (h : k ≠ r) (v : DWord) (s : State) :
    readD k (writeD r v s) = readD k s := by
  have hne : r.toNat ≠ k.toNat := fun e => h (BitVec.eq_of_toNat_eq e.symm)
  simp only [readD, writeD]
  exact Vector.getElem_set_ne r.isLt k.isLt hne

/-- A state whose `D` cells are those of another reads the same. -/
theorem readD_congr {s t : State} (h : t.d = s.d) (r : DNum) : readD r t = readD r s := by
  simp [readD, h]

@[simp] theorem readD_useCondition (k : ISet) (r : DNum) (s : State) : readD r (useCondition k s) = readD r s :=
  readD_congr (useCondition_d k s) r

@[simp] theorem readQ_useCondition (k : ISet) (q : QNum) (s : State) : readQ q (useCondition k s) = readQ q s := by
  simp [readQ]

theorem toNat_lowCell (q : QNum) : (lowCell q).toNat = 2 * q.toNat := by
  revert q
  decide

theorem toNat_highCell (q : QNum) : (highCell q).toNat = 2 * q.toNat + 1 := by
  revert q
  decide

theorem highCell_ne_lowCell (p q : QNum) : highCell p ≠ lowCell q := by
  intro h
  have := congrArg BitVec.toNat h
  rw [toNat_lowCell, toNat_highCell] at this
  omega

theorem toNat_quadNum (r : DNum) : (quadNum r).toNat = r.toNat / 2 := by
  have := r.isLt
  simp only [quadNum, BitVec.extractLsb'_toNat, Nat.shiftRight_eq_div_pow]
  omega

/-- An even number is the lower cell of the quadword register it names (R66). -/
theorem lowCell_quadNum {r : DNum} (h : r.toNat % 2 = 0) : lowCell (quadNum r) = r := by
  apply BitVec.eq_of_toNat_eq
  rw [toNat_lowCell, toNat_quadNum]
  omega

theorem readD_writeQ_low (q : QNum) (v : QWord) (s : State) :
    readD (lowCell q) (writeQ q v s) = v.extractLsb' 0 64 := by
  rw [writeQ, readD_writeD_other (highCell_ne_lowCell q q).symm, readD_writeD_same]

theorem readD_writeQ_high (q : QNum) (v : QWord) (s : State) :
    readD (highCell q) (writeQ q v s) = v.extractLsb' 64 64 := by
  rw [writeQ, readD_writeD_same]

theorem readD_writeQ_other {q : QNum} {r : DNum} (hl : r ≠ lowCell q) (hh : r ≠ highCell q) (v : QWord) (s : State) :
    readD r (writeQ q v s) = readD r s := by
  rw [writeQ, readD_writeD_other hh, readD_writeD_other hl]

@[simp] theorem readQ_writeQ_same (q : QNum) (v : QWord) (s : State) : readQ q (writeQ q v s) = v := by
  rw [readQ, readD_writeQ_low, readD_writeQ_high]
  apply BitVec.eq_of_getLsbD_eq
  intro i hi
  simp only [BitVec.getLsbD_append, BitVec.getLsbD_extractLsb']
  by_cases h : i < 64
  · simp [h]
  · have h2 : i - 64 < 64 := by omega
    have h3 : 64 + (i - 64) = i := by omega
    simp [h, h2, h3]

end Sys2Proof.Machine
end

