-- ==== Sys2Proof/Laws/Ops.lean ====
section
/-! SUPPORT. What each shared operation can do, said once: later proofs cite these and do not unfold the operations. -/

namespace Sys2Proof.Machine

/-! ## The advance of pc -/

/-- `complete` answers next exactly when there is room above `pc`, and then only `pc` has moved. -/
theorem complete_next_iff {s t : State} :
    complete s = .next t ↔ pcHasRoom s.pc = true ∧ t = { s with pc := s.pc + 4 } := by
  unfold complete
  by_cases h : pcHasRoom s.pc = true
  · rw [if_pos h]
    exact ⟨fun e => ⟨h, (Host.Outcome.next.inj e).symm⟩, fun e => by rw [e.2]⟩
  · rw [if_neg h]
    exact ⟨fun e => (nomatch e), fun e => absurd e.1 h⟩

/-- `complete` never faults. -/
theorem complete_not_fault (s : State) (f : Fault) : complete s ≠ .fault f := by
  unfold complete
  split <;> simp

/-- `complete` refuses only for want of room above `pc`. -/
theorem complete_refused_iff {s : State} {r : Refusal} :
    complete s = .refused r ↔ pcHasRoom s.pc = false ∧ r = .pcWouldWrap s.pc := by
  unfold complete
  by_cases h : pcHasRoom s.pc = true
  · rw [if_pos h]
    exact ⟨fun e => (nomatch e), fun e => absurd h (by simp [e.1])⟩
  · rw [if_neg h]
    exact ⟨fun e => ⟨by simpa using h, (Host.Outcome.refused.inj e).symm⟩, fun e => by rw [e.2]⟩

theorem toNat_pc_add_four {pc : Word} (h : pcHasRoom pc = true) : (pc + 4).toNat = pc.toNat + 4 := by
  simp only [pcHasRoom, decide_eq_true_eq] at h
  rw [BitVec.toNat_add]
  exact Nat.mod_eq_of_lt h

/-- Advancing by four keeps the alignment of either instruction set (R45). -/
theorem pcAligned_add_four (k : ISet) (pc : Word) : pcAligned k (pc + 4) = pcAligned k pc := by
  have h : (pc + 4).toNat % 4 = pc.toNat % 4 := by
    rw [BitVec.toNat_add]
    show (pc.toNat + 4) % 2 ^ 32 % 4 = pc.toNat % 4
    omega
  have h2 : (pc + 4).toNat % 2 = pc.toNat % 2 := by omega
  cases k with
  | a32 =>
    have e : (pc + 4).extractLsb' 0 2 = pc.extractLsb' 0 2 := by
      apply BitVec.eq_of_toNat_eq
      simp [BitVec.extractLsb'_toNat]
    simp only [pcAligned, e]
  | t32 =>
    have e : (pc + 4).extractLsb' 0 1 = pc.extractLsb' 0 1 := by
      apply BitVec.eq_of_toNat_eq
      simp only [BitVec.extractLsb'_toNat, Nat.shiftRight_zero, Nat.pow_one]
      exact h2
    simp only [pcAligned, e]

/-! ## The enable check -/

/-- The enable check reads `sys` and the table only. -/
theorem advSimdAnswer_congr {s t : State} (hs : t.sys = s.sys) (ha : t.advSimd = s.advSimd) :
    advSimdAnswer t = advSimdAnswer s := by
  simp [advSimdAnswer, hs, ha]

@[simp] theorem advSimdAnswer_useCondition (k : ISet) (s : State) :
    advSimdAnswer (useCondition k s) = advSimdAnswer s :=
  advSimdAnswer_congr (useCondition_sys k s) (useCondition_advSimd k s)

/-- Every function from `sys` is the answer of some table, on any finite list of values of `sys`: the table is as
general as the parameter `ADVSIMD_CHECK` (D4). -/
theorem advSimd_table_for (f : Sys → AdvSimdAnswer) (l : List Sys) (x : Sys) (hx : x ∈ l) :
    AdvSimdCheck.lookup x .pass (l.map fun y => (y, f y)) = f x := by
  induction l with
  | nil => simp at hx
  | cons y l ih =>
    simp only [List.map_cons, AdvSimdCheck.lookup]
    split
    · simp_all
    · rename_i hne
      exact ih ((List.mem_cons.mp hx).resolve_left hne)

/-! ## The step of one VEXT -/

/-- A failed condition answers next only as a no-op: the word is defined, or `COND_FAIL_UNDEF` lets it be one. -/
theorem conditionFailed_next {i : Instr} {s t : State} (h : conditionFailed i s = .next t) :
    pcHasRoom s.pc = true ∧
      (t = { s with pc := s.pc + 4 } ∨
        (s.condFailUndef = .either ∧ t = { s with pc := s.pc + 4, freeChoices := s.freeChoices + 1 })) := by
  unfold conditionFailed at h
  cases hu : i.undefCause with
  | none =>
    rw [hu] at h
    exact ⟨(complete_next_iff.mp h).1, .inl (complete_next_iff.mp h).2⟩
  | some c =>
    rw [hu] at h
    dsimp only at h
    split at h
    · exact ⟨(complete_next_iff.mp h).1, .inl (complete_next_iff.mp h).2⟩
    · simp [raiseUndefined] at h
    · rename_i hc
      split at h
      · simp [raiseUndefined] at h
      · exact ⟨(complete_next_iff.mp h).1, .inr ⟨hc, (complete_next_iff.mp h).2⟩⟩

/-- A passed condition answers next only for a defined word with Advanced SIMD enabled, and then the operation has been
done and `pc` advanced. -/
theorem conditionHeld_next_iff {i : Instr} {op : State → State} {s t : State} :
    conditionHeld i op s = .next t ↔
      i.undefCause = none ∧ advSimdAnswer s = .pass ∧ pcHasRoom (op s).pc = true ∧
        t = { op s with pc := (op s).pc + 4 } := by
  unfold conditionHeld
  cases hu : i.undefCause with
  | some c => simp [raiseUndefined]
  | none =>
    cases ha : advSimdAnswer s with
    | undefined => simp [raiseUndefined]
    | hypTrap => simp [raiseHypTrap]
    | pass => simp [complete_next_iff]

/-- Everything `stepVext` can do when it answers next (R90). -/
theorem stepVext_next {i : Instr} {op : State → State} {s t : State} (h : stepVext i op s = .next t) :
    (conditionPassed i.iset s = true ∧ i.undefCause = none ∧ advSimdAnswer s = .pass ∧
      pcHasRoom (op (useCondition i.iset s)).pc = true ∧
      t = { op (useCondition i.iset s) with pc := (op (useCondition i.iset s)).pc + 4 }) ∨
    (conditionPassed i.iset s = false ∧ pcHasRoom s.pc = true ∧
      (t = { useCondition i.iset s with pc := s.pc + 4 } ∨
        (s.condFailUndef = .either ∧
          t = { useCondition i.iset s with pc := s.pc + 4, freeChoices := s.freeChoices + 1 }))) := by
  unfold stepVext at h
  split at h
  · rename_i hp
    obtain ⟨hu, ha, hr, ht⟩ := conditionHeld_next_iff.mp h
    exact .inl ⟨hp, hu, by simpa using ha, hr, ht⟩
  · rename_i hp
    obtain ⟨hr, ht⟩ := conditionFailed_next h
    refine .inr ⟨by simpa using hp, by simpa using hr, ?_⟩
    simpa using ht

/-- A defined word whose condition passed and whose enable check passed completes. -/
theorem stepVext_completes {i : Instr} {op : State → State} {s : State} (hp : conditionPassed i.iset s = true)
    (hu : i.undefCause = none) (ha : advSimdAnswer s = .pass) (hr : pcHasRoom (op (useCondition i.iset s)).pc = true) :
    stepVext i op s =
      .next { op (useCondition i.iset s) with pc := (op (useCondition i.iset s)).pc + 4 } := by
  unfold stepVext
  rw [if_pos hp]
  exact conditionHeld_next_iff.mpr ⟨hu, by simpa using ha, hr, rfl⟩

/-- Everything `stepVext` can do when it faults (R120 to R123). -/
theorem stepVext_fault {i : Instr} {op : State → State} {s : State} {f : Fault} (h : stepVext i op s = .fault f) :
    (∃ c, i.undefCause = some c ∧ f = .undefinedInstruction (encode i) s.pc c ∧
      (conditionPassed i.iset s = true ∨ s.condFailUndef ≠ .nop)) ∨
    (conditionPassed i.iset s = true ∧ i.undefCause = none ∧
      ((advSimdAnswer s = .undefined ∧ f = .undefinedInstruction (encode i) s.pc .advSimdDisabled) ∨
        (advSimdAnswer s = .hypTrap ∧ f = .hypTrap (encode i) s.pc))) := by
  unfold stepVext at h
  split at h
  · rename_i hp
    unfold conditionHeld at h
    cases hu : i.undefCause with
    | some c =>
      simp only [hu, raiseUndefined, useCondition_pc] at h
      exact .inl ⟨c, rfl, by simpa using h.symm, .inl hp⟩
    | none =>
      simp only [hu, advSimdAnswer_useCondition] at h
      refine .inr ⟨hp, rfl, ?_⟩
      cases ha : advSimdAnswer s with
      | undefined =>
        simp only [ha, raiseUndefined, useCondition_pc] at h
        exact .inl ⟨rfl, by simpa using h.symm⟩
      | hypTrap =>
        simp only [ha, raiseHypTrap, useCondition_pc] at h
        exact .inr ⟨rfl, by simpa using h.symm⟩
      | pass =>
        simp only [ha] at h
        exact absurd h (complete_not_fault _ _)
  · unfold conditionFailed at h
    cases hu : i.undefCause with
    | none =>
      simp only [hu] at h
      exact absurd h (complete_not_fault _ _)
    | some c =>
      simp only [hu, useCondition_condFailUndef] at h
      cases hc : s.condFailUndef with
      | nop =>
        simp only [hc] at h
        exact absurd h (complete_not_fault _ _)
      | undefined =>
        simp only [hc, raiseUndefined, useCondition_pc] at h
        exact .inl ⟨c, rfl, by simpa using h.symm, .inr (by simp)⟩
      | either =>
        simp only [hc] at h
        split at h
        · simp only [raiseUndefined, useCondition_pc] at h
          exact .inl ⟨c, rfl, by simpa using h.symm, .inr (by simp)⟩
        · exact absurd h (complete_not_fault _ _)

/-- `stepVext` refuses only for want of room above `pc`. -/
theorem stepVext_refused {i : Instr} {op : State → State} {s : State} {r : Refusal}
    (hop : (op (useCondition i.iset s)).pc = s.pc) (h : stepVext i op s = .refused r) :
    pcHasRoom s.pc = false ∧ r = .pcWouldWrap s.pc := by
  unfold stepVext at h
  split at h
  · unfold conditionHeld at h
    cases hu : i.undefCause with
    | some c => simp [hu, raiseUndefined] at h
    | none =>
      simp only [hu, advSimdAnswer_useCondition] at h
      cases ha : advSimdAnswer s with
      | undefined => simp [ha, raiseUndefined] at h
      | hypTrap => simp [ha, raiseHypTrap] at h
      | pass =>
        simp only [ha] at h
        simpa [hop] using complete_refused_iff.mp h
  · unfold conditionFailed at h
    cases hu : i.undefCause with
    | none =>
      simp only [hu] at h
      simpa using complete_refused_iff.mp h
    | some c =>
      simp only [hu, useCondition_condFailUndef] at h
      cases hc : s.condFailUndef with
      | nop =>
        simp only [hc] at h
        simpa using complete_refused_iff.mp h
      | undefined => simp [hc, raiseUndefined] at h
      | either =>
        simp only [hc] at h
        split at h
        · simp [raiseUndefined] at h
        · simpa using complete_refused_iff.mp h

/-! ## The four meanings through one operation -/

/-- The operation of an instruction on the registers: R94 or R95. -/
def operationOf (i : Instr) : State → State :=
  if i.quadword then quadwordOp i.d i.n i.m i.imm4 else doublewordOp i.d i.n i.m i.imm4

/-- exec is the shared step of R90 around the instruction's operation. -/
theorem exec_eq_stepVext (i : Instr) (s : State) : exec i s = stepVext i (operationOf i) s := by
  cases i <;> rfl

theorem operationOf_doubleword {i : Instr} (h : i.quadword = false) :
    operationOf i = doublewordOp i.d i.n i.m i.imm4 := by
  simp [operationOf, h]

theorem operationOf_quadword {i : Instr} (h : i.quadword = true) :
    operationOf i = quadwordOp i.d i.n i.m i.imm4 := by
  simp [operationOf, h]

@[simp] theorem operationOf_pc (i : Instr) (s : State) : (operationOf i s).pc = s.pc := by cases i <;> rfl
@[simp] theorem operationOf_iset (i : Instr) (s : State) : (operationOf i s).iset = s.iset := by cases i <;> rfl
@[simp] theorem operationOf_sys (i : Instr) (s : State) : (operationOf i s).sys = s.sys := by cases i <;> rfl
@[simp] theorem operationOf_mem (i : Instr) (s : State) : (operationOf i s).mem = s.mem := by cases i <;> rfl
@[simp] theorem operationOf_endAddr (i : Instr) (s : State) : (operationOf i s).endAddr = s.endAddr := by
  cases i <;> rfl
@[simp] theorem operationOf_advSimd (i : Instr) (s : State) : (operationOf i s).advSimd = s.advSimd := by
  cases i <;> rfl
@[simp] theorem operationOf_condInputs (i : Instr) (s : State) : (operationOf i s).condInputs = s.condInputs := by
  cases i <;> rfl
@[simp] theorem operationOf_condFailUndef (i : Instr) (s : State) :
    (operationOf i s).condFailUndef = s.condFailUndef := by cases i <;> rfl
@[simp] theorem operationOf_freeChoices (i : Instr) (s : State) :
    (operationOf i s).freeChoices = s.freeChoices := by cases i <;> rfl

/-! ## The step of the machine -/

/-- What a step needs to reach an instruction (R146). -/
theorem nextInstr_ok_iff {s : State} {i : Instr} :
    nextInstr s = .ok i ↔
      s.pc ≠ s.endAddr ∧ pcHasRoom s.pc = true ∧ ∃ w, fetch s = .ok w ∧ decode s.iset w = .ok i := by
  unfold nextInstr
  split
  · simp_all
  · split
    · cases hf : fetch s with
      | error r => simp
      | ok w => cases hd : decode s.iset w <;> simp_all
    · simp_all

/-- Everything a step can do when it answers next: it executed the instruction at `pc`. -/
theorem step_next_iff {s t : State} :
    step s = .next t ↔ ∃ i, nextInstr s = .ok i ∧ exec i s = .next t := by
  unfold step
  cases h : nextInstr s <;> simp

/-- A step faults only by executing the instruction at `pc`. -/
theorem step_fault_iff {s : State} {f : Fault} :
    step s = .fault f ↔ ∃ i, nextInstr s = .ok i ∧ exec i s = .fault f := by
  unfold step
  cases h : nextInstr s <;> simp

/-- A run of the host goes on after a next step. -/
theorem core_run_next {k : Nat} {s u : State} (h : step s = .next u) :
    Sys2Proof.core.run (k + 1) s = Sys2Proof.core.run k u := by
  have e : Sys2Proof.core.step s = .next u := h
  exact (Host.Core.run.eq_2 Sys2Proof.core s k).trans (by rw [e])

/-- A run of the host ends at a fault. -/
theorem core_run_fault {k : Nat} {s : State} {f : Fault} (h : step s = .fault f) :
    Sys2Proof.core.run (k + 1) s = .fault f := by
  have e : Sys2Proof.core.step s = .fault f := h
  exact (Host.Core.run.eq_2 Sys2Proof.core s k).trans (by rw [e])

/-- A run of the host ends at a refusal. -/
theorem core_run_refused {k : Nat} {s : State} {r : Refusal} (h : step s = .refused r) :
    Sys2Proof.core.run (k + 1) s = .refused r := by
  have e : Sys2Proof.core.step s = .refused r := h
  exact (Host.Core.run.eq_2 Sys2Proof.core s k).trans (by rw [e])

/-- What the instruction that answers next leaves as it was, and where it leaves `pc` (R32). -/
theorem exec_next_keeps {i : Instr} {s t : State} (h : exec i s = .next t) :
    s.SameBut t ∧ pcHasRoom s.pc = true ∧ t.pc = s.pc + 4 := by
  rw [exec_eq_stepVext] at h
  obtain ⟨-, -, -, hr, rfl⟩ | ⟨-, hr, rfl | ⟨-, rfl⟩⟩ := stepVext_next h
  · exact ⟨⟨by simp, by simp, by simp, by simp, by simp, by simp⟩, by simpa using hr, by simp⟩
  · exact ⟨⟨by simp, by simp, by simp, by simp, by simp, by simp⟩, hr, rfl⟩
  · exact ⟨⟨by simp, by simp, by simp, by simp, by simp, by simp⟩, hr, rfl⟩

/-- What becomes of the inputs of a step that answers next (D5) and of the counter of free choices (log entry 8). -/
theorem exec_next_inputs {i : Instr} {s t : State} (h : exec i s = .next t) :
    t.condInputs = (useCondition i.iset s).condInputs ∧
      (t.freeChoices = s.freeChoices ∨
        (t.freeChoices = s.freeChoices + 1 ∧ s.condFailUndef = .either ∧ conditionPassed i.iset s = false)) := by
  rw [exec_eq_stepVext] at h
  obtain ⟨-, -, -, -, rfl⟩ | ⟨hp, -, rfl | ⟨hc, rfl⟩⟩ := stepVext_next h
  · exact ⟨by simp, .inl (by simp)⟩
  · exact ⟨rfl, .inl (by simp)⟩
  · exact ⟨rfl, .inr ⟨rfl, hc, hp⟩⟩

/-! ## What a run leaves -/

theorem State.SameBut.refl (s : State) : s.SameBut s := ⟨rfl, rfl, rfl, rfl, rfl, rfl⟩

theorem State.SameBut.trans {s t u : State} (h : s.SameBut t) (k : t.SameBut u) : s.SameBut u :=
  ⟨k.iset.trans h.iset, k.sys.trans h.sys, k.mem.trans h.mem, k.endAddr.trans h.endAddr, k.advSimd.trans h.advSimd,
    k.condFailUndef.trans h.condFailUndef⟩

/-- After a step the program text holds the rest of the program, up to the same `END` (R142). -/
theorem State.TextPlaced.next {s t : State} {w : Word} {ws : List Word} (h : s.TextPlaced (w :: ws)) (hs : s.SameBut t)
    (hp : t.pc.toNat = s.pc.toNat + 4) : t.TextPlaced ws := by
  have e : ∀ k, t.programEnd k = s.programEnd (k + 1) := fun k => by
    simp only [State.programEnd, hp, Config.instrBytes]
    omega
  refine ⟨fun k hk => ?_, by rw [hs.endAddr, h.endAt, e]; rfl⟩
  rw [hs.mem, hs.iset, e]
  exact h.text (k + 1) (Nat.succ_lt_succ hk)

end Sys2Proof.Machine
end

