-- ==== Sys2Proof/Laws/PerInstr.lean ====
section
/-! SUPPORT. Statements made per instruction. FixedBits: the word of an instruction has the fixed bits of its row of the
opcode table, whatever its operands (R65). -/

namespace Sys2Proof.Laws.FixedBits

/-- The row's mask (R65). -/
def tableMask : Word := 0xFFB00050#32

/-- The row's match (R65). -/
def tableMatch : Instr → Word
  | .vextA1D _ _ _ _ => 0xF2B00000#32
  | .vextA1Q _ _ _ _ => 0xF2B00040#32
  | .vextT1D _ _ _ _ => 0xEFB00000#32
  | .vextT1Q _ _ _ _ => 0xEFB00040#32

/-- The encoded word matches its own row (R65). -/
def Statement (i : Instr) : Prop := encode i &&& tableMask = tableMatch i

/-- A word built by the diagram, masked, is the word of the same form with all operands zero. -/
theorem encodeFields_masked (k : ISet) (q : Bool) (d n m : DNum) (imm4 : BitVec 4) :
    encodeFields k q d n m imm4 &&& tableMask = encodeFields k q 0 0 0 0 := by
  apply BitVec.eq_of_getLsbD_eq
  intro j hj
  have h : j ∈ List.range 32 := List.mem_range.mpr hj
  simp only [show List.range 32 = [0, 1, 2, 3, 4, 5, 6, 7, 8, 9, 10, 11, 12, 13, 14, 15, 16, 17, 18, 19, 20, 21, 22,
    23, 24, 25, 26, 27, 28, 29, 30, 31] from rfl, List.mem_cons, List.not_mem_nil, or_false] at h
  rw [BitVec.getLsbD_and, encodeFields_getLsbD, encodeFields_getLsbD]
  rcases h with h | h | h | h | h | h | h | h | h | h | h | h | h | h | h | h | h | h | h | h | h | h | h | h | h | h |
    h | h | h | h | h | h <;> subst h <;> simp [tableMask]

theorem vextA1D (d n m : DNum) (imm4 : BitVec 4) : Statement (.vextA1D d n m imm4) := by
  exact (encodeFields_masked .a32 false d n m imm4).trans (by simp only [tableMatch]; decide)

theorem vextA1Q (d n m : DNum) (imm4 : BitVec 4) : Statement (.vextA1Q d n m imm4) := by
  exact (encodeFields_masked .a32 true d n m imm4).trans (by simp only [tableMatch]; decide)

theorem vextT1D (d n m : DNum) (imm4 : BitVec 4) : Statement (.vextT1D d n m imm4) := by
  exact (encodeFields_masked .t32 false d n m imm4).trans (by simp only [tableMatch]; decide)

theorem vextT1Q (d n m : DNum) (imm4 : BitVec 4) : Statement (.vextT1Q d n m imm4) := by
  exact (encodeFields_masked .t32 true d n m imm4).trans (by simp only [tableMatch]; decide)

end Sys2Proof.Laws.FixedBits
end

