-- ==== Sys2Proof/Tests/Slice0.lean ====
section
/-! SUPPORT. The model's own tests. Expected values are those of 95_test_vectors.md and of the rules named at each test;
witnesses show that the hypotheses of each statement of Obligations.lean can be met together. -/

namespace Sys2Proof.Tests

open Sys2Proof.Machine

/-! ## Small states -/

/-- A launch state with one instruction word at `pc` and some `D` cells. -/
def launch (k : ISet) (pc w : Word) (cells : List (DNum × DWord)) : State :=
  cells.foldl (fun s c => writeD c.1 c.2 s)
    { State.reset with iset := k, pc := pc, mem := Memory.placeAll pc.toNat (bytesOfWord k w) [] }

/-- The enable check answers this for the reset `sys`, through a row of its table. -/
def checked (a : AdvSimdAnswer) (s : State) : State := { s with advSimd := ⟨[(Sys.reset, a)], .pass⟩ }

/-- The next T32 steps have these inputs `COND_PASSED`. -/
def conds (l : List Bool) (s : State) : State := { s with condInputs := l }

/-- `COND_FAIL_UNDEF` has this value. -/
def failUndef (c : CondFailUndef) (s : State) : State := { s with condFailUndef := c }

/-- The outcome is next, with a property. -/
def nextHas (o : Host.Outcome State Fault Refusal) (p : State → Bool) : Bool :=
  match o with
  | .next t => p t
  | .fault _ => false
  | .refused _ => false

/-- The outcome is this fault. -/
def faultIs (o : Host.Outcome State Fault Refusal) (f : Fault) : Bool :=
  match o with
  | .next _ => false
  | .fault g => f == g
  | .refused _ => false

/-- The outcome is this refusal. -/
def refusedIs (o : Host.Outcome State Fault Refusal) (r : Refusal) : Bool :=
  match o with
  | .next _ => false
  | .fault _ => false
  | .refused q => r == q

/-- The registers of 95_test_vectors.md section 2.6. -/
def regs26 : List (DNum × DWord) :=
  [(0, 0x1111111111111111), (1, 0x0706050403020100), (2, 0x0F0E0D0C0B0A0908)]

/-- The registers of section 2.4 (`Q1` and `Q2`). -/
def regs24 : List (DNum × DWord) :=
  [(2, 0x0706050403020100), (3, 0x0F0E0D0C0B0A0908), (4, 0x1716151413121110), (5, 0x1F1E1D1C1B1A1918)]

/-! ## WellFormed: an ill-formed term for each check -/

theorem test_wellFormed_a1d : (Instr.vextA1D 0 1 2 7).wellFormed = true ∧ (Instr.vextA1D 0 1 2 8).wellFormed = false := by
  decide
theorem test_wellFormed_t1d : (Instr.vextT1D 31 1 2 0).wellFormed = true ∧ (Instr.vextT1D 31 1 2 15).wellFormed = false := by
  decide
theorem test_wellFormed_a1q : (Instr.vextA1Q 0 2 4 15).wellFormed = true ∧ (Instr.vextA1Q 1 2 4 3).wellFormed = false ∧
    (Instr.vextA1Q 0 3 4 3).wellFormed = false ∧ (Instr.vextA1Q 0 2 5 3).wellFormed = false := by decide
theorem test_wellFormed_t1q : (Instr.vextT1Q 30 2 4 8).wellFormed = true ∧ (Instr.vextT1Q 31 2 4 3).wellFormed = false ∧
    (Instr.vextT1Q 30 1 4 3).wellFormed = false ∧ (Instr.vextT1Q 30 2 1 3).wellFormed = false := by decide

/-! ## Decoding: words written bit by bit from R61 and R62 -/

/-- `VEXT.8 D16, D17, D18, #1` (section 2.1). -/
theorem test_decode_a1d : decode .a32 0b11110010111100010000000110100010#32 = .ok (.vextA1D 16 17 18 1) := by decide
/-- `VEXT.8 Q15, Q14, Q13, #15` (section 2.1). -/
theorem test_decode_a1q : decode .a32 0b11110010111111001110111111101010#32 = .ok (.vextA1Q 30 28 26 15) := by decide
/-- `VEXT.8 D0, D1, D2, #3` (section 2.1). -/
theorem test_decode_t1d : decode .t32 0b11101111101100010000001100000010#32 = .ok (.vextT1D 0 1 2 3) := by decide
/-- `VEXT.8 Q8, Q7, Q0, #1` (section 2.2). -/
theorem test_decode_t1q : decode .t32 0b11101111111111100000000101000000#32 = .ok (.vextT1Q 16 14 0 1) := by decide

/-- Section 2.1's words that are no VEXT, each with one fixed bit changed. -/
theorem test_decode_rejects :
    decode .a32 0xF2B10312#32 = .error (.notVext 0xF2B10312#32) ∧
    decode .a32 0xF2B00050#32 = .error (.notVext 0xF2B00050#32) ∧
    decode .a32 0xF2910302#32 = .error (.notVext 0xF2910302#32) ∧
    decode .a32 0xF2A10302#32 = .error (.notVext 0xF2A10302#32) ∧
    decode .a32 0xF3B10302#32 = .error (.notVext 0xF3B10302#32) ∧
    decode .a32 0xF2310302#32 = .error (.notVext 0xF2310302#32) ∧
    decode .a32 0xE2B10302#32 = .error (.notVext 0xE2B10302#32) ∧
    decode .a32 0xEFB10302#32 = .error (.notVext 0xEFB10302#32) ∧
    decode .t32 0xFFB10302#32 = .error (.notVext 0xFFB10302#32) := by decide
/-- Section 2.1's UNDEFINED words decode, and are UNDEFINED for the cause listed. -/
theorem test_decode_undefined :
    (decode .a32 0xF2B10802#32).map Instr.undefCause = .ok (some .doublewordImmediate) ∧
    (decode .a32 0xF2FFFFAF#32).map Instr.undefCause = .ok (some .doublewordImmediate) ∧
    (decode .a32 0xF2B21344#32).map Instr.undefCause = .ok (some .oddQuadRegister) ∧
    (decode .a32 0xF2B30344#32).map Instr.undefCause = .ok (some .oddQuadRegister) ∧
    (decode .a32 0xF2B20345#32).map Instr.undefCause = .ok (some .oddQuadRegister) ∧
    (decode .a32 0xF2F20344#32).map Instr.undefCause = .ok none := by decide

/-- Section 2.2: words and bytes of both instruction sets. -/
theorem test_encode_bytes :
    encodeBytes (.vextA1D 31 0 15 5) = [0x0F, 0xF5, 0xF0, 0xF2] ∧
    encodeBytes (.vextT1Q 30 28 26 15) = [0xFC, 0xEF, 0xEA, 0xEF] := by decide
/-- Too few bytes spell nothing (R60). -/
theorem test_decode_short : decodeBytes .a32 [0x02, 0x03, 0xB1] = .error .tooFewBytes := by decide
/-- The opcode table's own words (its match values), numbered as the table numbers them. -/
theorem test_table_words :
    decodeTableWord 32 0xF2B00000 = some (.vextA1D 0 0 0 0) ∧ decodeTableWord 32 0xF2B00040 = some (.vextA1Q 0 0 0 0) ∧
    decodeTableWord 32 0xEFB00000 = some (.vextT1D 0 0 0 0) ∧ decodeTableWord 32 0xEFB00040 = some (.vextT1Q 0 0 0 0) ∧
    decodeTableWord 32 0xF2B00050 = none := by decide

/-! ## The assembler (section 2.2) -/

theorem test_assemble :
    assemble .a32 none ⟨none, none, .doubleword none 1 2, 3⟩ = .ok 0xF2B11302#32 ∧
    assemble .t32 none ⟨none, none, .quadword (some 15) 14 13, 15⟩ = .ok 0xEFFCEFEA#32 ∧
    assemble .a32 none ⟨none, none, .doubleword (some 0) 1 2, 8⟩ = .error .immOutOfRange ∧
    assemble .a32 none ⟨none, none, .quadword (some 0) 1 2, 16⟩ = .error .immOutOfRange ∧
    assemble .a32 none ⟨some .eq, none, .doubleword (some 0) 1 2, 3⟩ = .error .mustBeUnconditional ∧
    assemble .t32 (some .eq) ⟨some .eq, none, .doubleword (some 0) 1 2, 3⟩ = .ok 0xEFB10302#32 := by decide
theorem test_print : (disassemble (.vextA1Q 16 2 28 9)).map AsmLine.text = some "VEXT.8 Q8, Q1, Q14, #9" := by decide

/-! ## One step of each encoding -/

/-- Section 2.3, `imm` 7. -/
theorem test_a1d : nextHas (step (launch .a32 0x8000 0xF2B10702 regs26))
    (fun t => readD 0 t == 0x0E0D0C0B0A090807 && readD 1 t == 0x0706050403020100 && t.pc == 0x8004) = true := by decide
/-- Section 2.5: the destination is the second source, operands swapped. -/
theorem test_a1d_overlap : nextHas (step (launch .a32 0x8000 0xF2B10200 [(0, 0x0706050403020100), (1, 0x0F0E0D0C0B0A0908)]))
    (fun t => readD 0 t == 0x01000F0E0D0C0B0A) = true := by decide
/-- Section 2.4, `imm` 15. -/
theorem test_a1q : nextHas (step (launch .a32 0x8000 0xF2B20F44 regs24))
    (fun t => readD 0 t == 0x161514131211100F && readD 1 t == 0x1E1D1C1B1A191817) = true := by decide
/-- Section 2.5: the destination is the first source. -/
theorem test_a1q_overlap : nextHas (step (launch .a32 0x8000 0xF2B00142
      [(0, 0x0706050403020100), (1, 0x0F0E0D0C0B0A0908), (2, 0x1716151413121110), (3, 0x1F1E1D1C1B1A1918)]))
    (fun t => readD 0 t == 0x0807060504030201 && readD 1 t == 0x100F0E0D0C0B0A09 && readD 2 t == 0x1716151413121110) = true := by
  decide
/-- Program P3, first step, at a `pc` that is 2 modulo 4. -/
theorem test_t1d : nextHas (step (launch .t32 0x2002 0xEFF101A2 [(17, 0x8877665544332211), (18, 0xFFEEDDCCBBAA0099)]))
    (fun t => readD 16 t == 0x9988776655443322 && t.pc == 0x2006) = true := by decide
/-- Section 2.7: a failed condition reaches neither the enable check nor the register. -/
theorem test_t1d_condition_failed :
    nextHas (step (conds [false, true] (checked .hypTrap (launch .t32 0x2002 0xEFB10302 regs26))))
      (fun t => readD 0 t == 0x1111111111111111 && t.pc == 0x2006 && t.condInputs == [true]) = true := by decide
/-- Program P3, second step: `Q15` is destination and first source. -/
theorem test_t1q : nextHas (step (launch .t32 0x2006 0xEFFEEFE0 [(16, 0x9988776655443322), (17, 0x8877665544332211),
      (30, 0x0123456789ABCDEF), (31, 0xFEDCBA9876543210)]))
    (fun t => readD 30 t == 0x88776655443322FE && readD 31 t == 0x7766554433221199) = true := by decide
/-- Section 2.7's rows for an UNDEFINED word with a failed condition, on an odd register field. -/
theorem test_t1q_condition_failed_undefined :
    nextHas (step (failUndef .nop (conds [false] (launch .t32 0x2002 0xEFB21344 [])))) (fun t => t.pc == 0x2006) = true ∧
    faultIs (step (failUndef .undefined (conds [false] (launch .t32 0x2002 0xEFB21344 []))))
      (.undefinedInstruction 0xEFB21344 0x2002 .oddQuadRegister) = true := by decide

/-! ## Faults and refusals (sections 2.6, 2.8) -/

/-- Section 2.6: the decode test comes before the enable check, and the check's two faults. -/
theorem test_fault_order :
    faultIs (step (checked .hypTrap (launch .a32 0x8000 0xF2B10802 regs26)))
      (.undefinedInstruction 0xF2B10802 0x8000 .doublewordImmediate) = true ∧
    faultIs (step (checked .undefined (launch .a32 0x8000 0xF2B10302 regs26)))
      (.undefinedInstruction 0xF2B10302 0x8000 .advSimdDisabled) = true ∧
    faultIs (step (checked .hypTrap (launch .a32 0x8000 0xF2B10302 regs26))) (.hypTrap 0xF2B10302 0x8000) = true := by
  decide
/-- Section 2.8 and R146: each refusal of a step. -/
theorem test_refusals :
    refusedIs (step (launch .a32 0x8002 0xF2B10302 [])) (.misalignedA32Fetch 0x8002) = true ∧
    refusedIs (step (launch .t32 0x2001 0xEFB10302 [])) (.misalignedT32Fetch 0x2001) = true ∧
    refusedIs (step (launch .a32 0x8000 0x0302EFB1 [])) (.notVext 0x0302EFB1) = true ∧
    refusedIs (step { State.reset with pc := 0x8000 }) (.noProgramByte 0x8000) = true ∧
    refusedIs (step (launch .t32 0xFFFFFFFE 0xEFB10302 [])) (.pcWouldWrap 0xFFFFFFFE) = true ∧
    refusedIs (step { launch .a32 0x8000 0xF2B10302 [] with endAddr := 0x8000 }) .runEnded = true := by decide
/-- The table's words run as the first instruction after reset. -/
theorem test_first_instruction :
    nextHas (step (State.reset.withFetchWord 32 0xF2B00000)) (fun t => t.pc == 4) = true ∧
    nextHas (step (State.reset.withFetchWord 32 0xEFB00040)) (fun t => t.pc == 4 && t.iset == .t32) = true := by decide

/-! ## Witnesses: the hypotheses of each statement, met together -/

/-- Words that decode, one of each encoding, at the ends of the ranges. -/
theorem test_witness_EncodeOfDecode : decode .a32 0xF2FFF7AF#32 = .ok (.vextA1D 31 31 31 7) := by decide
theorem test_witness_QBitSelectsEncoding :
    (decode .a32 0xF2B10302#32 = .ok (.vextA1D 0 1 2 3) ∧ (0xF2B10302#32).getLsbD 6 = false) ∧
    (decode .a32 0xF2FEEFEE#32 = .ok (.vextA1Q 30 30 30 15) ∧ (0xF2FEEFEE#32).getLsbD 6 = true) ∧
    (decode .t32 0xEFB10302#32 = .ok (.vextT1D 0 1 2 3) ∧ (0xEFB10302#32).getLsbD 6 = false) ∧
    (decode .t32 0xEFFEEFEE#32 = .ok (.vextT1Q 30 30 30 15) ∧ (0xEFFEEFEE#32).getLsbD 6 = true) := by decide
theorem test_witness_FormatA1Diagram : (Instr.vextA1Q 31 0 31 15).iset = .a32 := rfl
theorem test_witness_ImmediateIsByteCount :
    (decode .a32 0xF2B10702#32 = .ok (.vextA1D 0 1 2 7) ∧ (Instr.vextA1D 0 1 2 7).undefCause = none) ∧
    (decode .a32 0xF2B20F44#32 = .ok (.vextA1Q 0 2 4 15) ∧ (Instr.vextA1Q 0 2 4 15).undefCause = none) ∧
    assemble .a32 none ⟨none, none, .quadword (some 0) 1 2, 15⟩ = .ok 0xF2B20F44#32 := by decide
theorem test_witness_RegisterNumbersOfWord :
    decode .a32 0xF2FEEFEE#32 = .ok (.vextA1Q 30 30 30 15) ∧ (Instr.vextA1Q 30 30 30 15).undefCause = none := by decide
theorem test_witness_QuadwordUndefinedTest :
    decode .a32 0xF2B21344#32 = .ok (.vextA1Q 1 2 4 3) ∧ (0xF2B21344#32).getLsbD 6 = true := by decide
theorem test_witness_DoublewordUndefinedTest :
    decode .a32 0xF2B10802#32 = .ok (.vextA1D 0 1 2 8) ∧ (0xF2B10802#32).getLsbD 6 = false := by decide
theorem test_witness_ClassesShareNoWord :
    decode .a32 0xF2B10302#32 = .ok (.vextA1D 0 1 2 3) ∧ decode .t32 0xEFB10302#32 = .ok (.vextT1D 0 1 2 3) := by decide
theorem test_witness_T1WordsAreWide : decode .t32 0xEFB20344#32 = .ok (.vextT1Q 0 2 4 3) := by decide
theorem test_witness_OperandEncoderInverts :
    operandsEncodable false 31 0 15 7 = true ∧ operandsEncodable true 30 0 14 15 = true ∧
    operandsEncodable false 31 0 15 8 = false ∧ operandsEncodable true 30 0 14 16 = false ∧
    operandsEncodable true 31 0 14 15 = false ∧ operandsEncodable false 32 0 0 0 = false ∧
    decode .a32 0xF2F0F50F#32 = .ok (.vextA1D 31 0 15 5) ∧ (Instr.vextA1D 31 0 15 5).undefCause = none := by decide
theorem test_witness_AssemblerImmediateRange :
    condError .a32 none (some .al) = none ∧ condError .t32 (some .ne) (some .ne) = none ∧
    (7 ≤ (AsmRegs.doubleword none 1 2).maxImm ∧ (AsmRegs.doubleword none 1 2).maxImm < 8) ∧
    (15 ≤ (AsmRegs.quadword none 1 2).maxImm ∧ (AsmRegs.quadword none 1 2).maxImm < 16) ∧
    decode .a32 0xF2B10802#32 = .ok (.vextA1D 0 1 2 8) ∧ 7 < (fieldImm4 0xF2B10802#32).toNat := by decide
theorem test_witness_AssembleOfDisassemble :
    ((Instr.vextT1Q 30 2 28 15).undefCause = none ∧ (Instr.vextT1Q 30 2 28 15).quadword = true) ∧
    ((Instr.vextA1D 31 0 31 7).undefCause = none ∧ (Instr.vextA1D 31 0 31 7).quadword = false) ∧
    disassemble (.vextT1Q 30 2 28 15) = some ⟨none, none, .quadword (some 15) 1 14, 15⟩ := by decide
/-- R77, R78: the boundary values are `AL` and the condition of the block itself. -/
theorem test_witness_AssemblerRejections :
    assemble .a32 none ⟨some .le, none, .doubleword none 1 2, 3⟩ = .error .mustBeUnconditional ∧
    assemble .a32 none ⟨some .al, none, .doubleword none 1 2, 3⟩ = .ok 0xF2B11302#32 ∧
    assemble .t32 (some .eq) ⟨some .ne, none, .doubleword (some 0) 1 2, 3⟩ = .error .conditionNotFromITBlock ∧
    assemble .t32 none ⟨some .eq, none, .doubleword (some 0) 1 2, 3⟩ = .error .conditionNotFromITBlock ∧
    assemble .t32 (some .eq) ⟨some .al, some .wide, .doubleword (some 0) 1 2, 3⟩ = .ok 0xEFB10302#32 ∧
    assemble .t32 (some .eq) ⟨some .eq, some .narrow, .doubleword (some 0) 1 2, 3⟩ = .error .noNarrowEncoding := by decide
theorem test_witness_ConditionTable : (0xF0#8).extractLsb' 0 4 = 0#4 ∧ 0b110#3 ≠ 0b111#3 := by decide

/-- A state with Advanced SIMD enabled and room above `pc`, at the highest such aligned `pc`. -/
def ready (k : ISet) : State := launch k 0xFFFFFFF8 0 regs24

theorem test_witness_A32VextCompletes :
    (ready .a32).AdvSimdEnabled ∧ (ready .a32).NoWrap ∧ (7#4).toNat ≤ 7 ∧ (30#5).toNat % 2 = 0 := by decide
theorem test_witness_T32VextCompletes :
    (ready .t32).condInputs.headD true = true ∧ (ready .t32).AdvSimdEnabled ∧ (ready .t32).NoWrap ∧ (7#4).toNat ≤ 7 ∧
    (30#5).toNat % 2 = 0 := by decide
theorem test_witness_DoublewordResult :
    (Instr.vextT1D 31 31 31 7).quadword = false ∧ (Instr.vextT1D 31 31 31 7).imm4.toNat ≤ 7 ∧
    conditionPassed .t32 (ready .t32) = true ∧ (ready .t32).AdvSimdEnabled ∧ (ready .t32).NoWrap := by decide
theorem test_witness_QuadwordResult :
    (Instr.vextA1Q 30 28 0 15).quadword = true ∧ (Instr.vextA1Q 30 28 0 15).d.toNat % 2 = 0 ∧
    (Instr.vextA1Q 30 28 0 15).n.toNat % 2 = 0 ∧ (Instr.vextA1Q 30 28 0 15).m.toNat % 2 = 0 ∧
    conditionPassed .a32 (ready .a32) = true ∧ (ready .a32).AdvSimdEnabled ∧ (ready .a32).NoWrap := by decide
theorem test_witness_DoublewordLanes :
    (Instr.vextA1D 0 1 2 7).quadword = false ∧ (Instr.vextA1D 0 1 2 7).imm4.toNat ≤ 7 ∧
    conditionPassed .a32 (ready .a32) = true ∧ (ready .a32).AdvSimdEnabled ∧ (ready .a32).NoWrap := by decide
theorem test_witness_QuadwordLanes :
    (Instr.vextT1Q 30 28 0 15).quadword = true ∧ (Instr.vextT1Q 30 28 0 15).d.toNat % 2 = 0 ∧
    (Instr.vextT1Q 30 28 0 15).n.toNat % 2 = 0 ∧ (Instr.vextT1Q 30 28 0 15).m.toNat % 2 = 0 ∧
    conditionPassed .t32 (ready .t32) = true ∧ (ready .t32).AdvSimdEnabled ∧ (ready .t32).NoWrap := by decide
theorem test_witness_CopyAndRotate :
    (Instr.vextA1D 5 5 5 0).undefCause = none ∧ (Instr.vextA1Q 0 2 2 15).undefCause = none ∧
    conditionPassed .a32 (ready .a32) = true ∧ (ready .a32).AdvSimdEnabled ∧ (ready .a32).NoWrap ∧
    (Instr.vextA1D 5 5 5 0).imm4 = 0 ∧ (Instr.vextA1Q 0 2 2 15).n = (Instr.vextA1Q 0 2 2 15).m := by decide
theorem test_witness_ResultAsArithmetic :
    (Instr.vextT1D 5 6 7 7).undefCause = none ∧ (Instr.vextT1Q 4 6 8 15).undefCause = none ∧
    conditionPassed .t32 (ready .t32) = true ∧ (ready .t32).AdvSimdEnabled ∧ (ready .t32).NoWrap := by decide
theorem test_witness_ViewsShareStorage : (31#5).toNat / 2 ≠ (0#4).toNat := by decide
theorem test_witness_DoublewordFrame :
    nextHas (exec (.vextA1D 0 1 2 3) (ready .a32)) (fun t => t.pc == 0xFFFFFFFC) = true ∧
    nextHas (exec (.vextT1D 0 1 2 3) (conds [false] (ready .t32))) (fun t => t.pc == 0xFFFFFFFC) = true ∧
    conditionPassed .t32 (conds [false] (ready .t32)) = false := by decide
theorem test_witness_QuadwordFrame :
    nextHas (exec (.vextA1Q 0 2 4 3) (ready .a32)) (fun t => t.pc == 0xFFFFFFFC) = true ∧
    nextHas (exec (.vextT1Q 0 2 4 3) (ready .t32)) (fun t => t.pc == 0xFFFFFFFC) = true ∧
    nextHas (exec (.vextT1Q 0 2 4 3) (conds [false] (ready .t32))) (fun t => t.pc == 0xFFFFFFFC) = true ∧
    conditionPassed .t32 (conds [false] (ready .t32)) = false := by decide
theorem test_witness_FailedConditionIsNop :
    (Instr.vextT1Q 0 2 4 3).iset = .t32 ∧ (Instr.vextT1Q 0 2 4 3).undefCause = none ∧
    (conds [false] (ready .t32)).condInputs.headD true = false ∧ (conds [false] (ready .t32)).NoWrap := by decide
theorem test_witness_FailedConditionOfUndefinedWord :
    (Instr.vextT1D 0 2 4 8).iset = .t32 ∧ (Instr.vextT1D 0 2 4 8).undefCause = some .doublewordImmediate ∧
    ∀ c ∈ [CondFailUndef.nop, CondFailUndef.undefined, CondFailUndef.either],
      (failUndef c (conds [false] (ready .t32))).condInputs.headD true = false ∧
      (failUndef c (conds [false] (ready .t32))).NoWrap ∧ (failUndef c (conds [false] (ready .t32))).condFailUndef = c := by
  decide
theorem test_witness_UndefinedTestBeforeEnableCheck :
    conditionPassed .a32 (checked .hypTrap (ready .a32)) = true ∧
    (Instr.vextA1Q 0 2 5 0).undefCause = some .oddQuadRegister := by decide
theorem test_witness_EnableCheckFaults :
    conditionPassed .a32 (ready .a32) = true ∧ (Instr.vextA1D 0 1 2 3).undefCause = none ∧
    advSimdAnswer (checked .undefined (ready .a32)) = .undefined ∧
    advSimdAnswer (checked .hypTrap (ready .a32)) = .hypTrap := by decide
theorem test_witness_FaultsAreExactlyThese :
    faultIs (exec (.vextA1D 0 1 2 8) (ready .a32)) (.undefinedInstruction 0xF2B10802 0xFFFFFFF8 .doublewordImmediate) = true ∧
    faultIs (exec (.vextA1D 0 1 2 3) (checked .hypTrap (ready .a32))) (.hypTrap 0xF2B10302 0xFFFFFFF8) = true ∧
    (conditionPassed .t32 (failUndef .undefined (conds [false] (ready .t32))) = false ∧
      (failUndef .undefined (conds [false] (ready .t32))).condFailUndef = .undefined ∧
      (Instr.vextT1Q 0 2 5 0).undefCause = some .oddQuadRegister) ∧
    advSimdAnswer (checked .undefined (ready .a32)) = .undefined ∧
    advSimdAnswer (checked .hypTrap (ready .a32)) = .hypTrap ∧
    (Instr.vextA1D 0 1 2 7).undefCause = none ∧ (ready .a32).AdvSimdEnabled := by decide

/-- A T32 launch state at the top of its program, all premises of R142 met. -/
def premises : State := launch .t32 0x2002 0xEFF101A2 regs26

theorem test_witness_StepRunsDecodedInstruction :
    premises.pc ≠ premises.endAddr ∧ premises.NoWrap ∧ fetch premises = .ok 0xEFF101A2 ∧
    decode premises.iset 0xEFF101A2 = .ok (.vextT1D 16 17 18 1) := by decide
theorem test_witness_FetchReadsPlacedText : premises.PcAligned ∧ premises.TextAt 0xEFF101A2 ∧
    Memory.read premises.mem 0x2002 = some 0xF1 ∧ Memory.read premises.mem 0x2003 = some 0xEF ∧
    Memory.read premises.mem 0x2004 = some 0xA2 ∧ Memory.read premises.mem 0x2005 = some 0x01 := by decide
theorem test_witness_FetchRefusals :
    (launch .a32 0x8002 0 []).pc.toNat % 4 ≠ 0 ∧ (launch .t32 0x2001 0 []).pc.toNat % 2 ≠ 0 ∧
    (let s : State := { launch .a32 0x8000 0 [] with mem := Memory.placeAll 0x8000 [1, 2, 3] [] }
     s.PcAligned ∧ (∀ j < 3, Memory.read s.mem (s.pc.toNat + j) ≠ none) ∧ Memory.read s.mem (s.pc.toNat + 3) = none) := by
  decide
theorem test_witness_FaultRecordsFetchedWord :
    faultIs (step (launch .a32 0x8000 0xF2B10802 [])) (.undefinedInstruction 0xF2B10802 0x8000 .doublewordImmediate) = true := by
  decide
theorem test_witness_PremisesGiveProgress :
    (Instr.vextT1D 16 17 18 1).iset = premises.iset ∧ (Instr.vextT1D 16 17 18 1).wellFormed = true ∧
    premises.pc ≠ premises.endAddr ∧ premises.NoWrap ∧ premises.PcAligned ∧
    premises.TextAt (encode (.vextT1D 16 17 18 1)) ∧ premises.AdvSimdEnabled ∧ premises.NotInITBlock := by decide
theorem test_witness_PlacedInstructionRuns :
    pcAligned (Instr.vextT1Q 0 2 4 3).iset premises.pc = true ∧ premises.NoWrap := by decide
theorem test_witness_StepKeepsInvariant :
    premises.Inv ∧ nextHas (step premises) (fun t => t.pc == 0x2006) = true :=
  ⟨⟨by decide, by decide⟩, by decide⟩
theorem test_witness_PlacingKeepsInvariant :
    premises.Inv ∧ pcAligned (premises.withFetchWord 32 0xEFB20344).iset premises.pc = true :=
  ⟨⟨by decide, by decide⟩, by decide⟩
theorem test_witness_StepLeavesSystemState :
    nextHas (step premises) (fun t => t.pc == 0x2006) = true ∧ premises.NotInITBlock ∧ premises.iset = .t32 ∧
    nextHas (step (launch .a32 0x8000 0xF2B10302 [])) (fun t => t.pc == 0x8004 && t.iset == .a32) = true := by decide
theorem test_witness_SysOnlyThroughEnableCheck :
    advSimdAnswer (premises.withSys { Sys.reset with mode := .hyp, cpacr := 0x00F00000 } ⟨[], .pass⟩)
      = advSimdAnswer premises := by decide
theorem test_witness_ResultFromSourcesOnly :
    (Instr.vextA1D 0 2 3 3).undefCause = none ∧ (Instr.vextA1Q 0 2 2 3).undefCause = none ∧
    conditionPassed .a32 (ready .a32) = true ∧ conditionPassed .a32 (writeD 9 1 (ready .a32)) = true ∧
    (∀ i ∈ [Instr.vextA1D 0 2 3 3, Instr.vextA1Q 0 2 2 3],
      nextHas (exec i (ready .a32)) (fun _ => true) = true ∧
      nextHas (exec i (writeD 9 1 (ready .a32))) (fun _ => true) = true) ∧
    readD 2 (writeD 9 1 (ready .a32)) = readD 2 (ready .a32) ∧ readD 3 (writeD 9 1 (ready .a32)) = readD 3 (ready .a32) ∧
    readQ 1 (writeD 9 1 (ready .a32)) = readQ 1 (ready .a32) := by decide
theorem test_witness_KStepsAdvanceFourK : nextHas (Sys2Proof.core.run 1 premises) (fun t => t.pc == 0x2006) = true := by
  decide
theorem test_witness_EveryRunEnds : 2 ^ 30 ≤ 2 ^ 30 := Nat.le_refl _
theorem test_witness_FinalRunEndsAtEnd :
    (match run 1 { premises with endAddr := 0x2006 } with
      | .final t => t.pc == 0x2006
      | .faulted _ => false
      | .refused _ => false
      | .unfinished _ => false) = true := by decide

/-- A launch state with the words of a program placed from `pc` on, and `END` behind them (R142). -/
def launchProgram (k : ISet) (pc : Word) (words : List Word) : State :=
  { State.reset with
    iset := k
    pc := pc
    mem := Memory.placeAll pc.toNat (words.flatMap (bytesOfWord k)) []
    endAddr := pc + 4 * BitVec.ofNat 32 words.length }

/-- Program P1 of 95_test_vectors.md. -/
def progP1 : List Instr := [.vextA1D 0 1 2 3, .vextA1D 3 0 0 1, .vextA1D 0 0 3 4]

/-- Program P3 of 95_test_vectors.md, which ends in an UNDEFINED word. -/
def progP3 : List Instr := [.vextT1D 16 17 18 1, .vextT1Q 30 30 16 15, .vextT1D 31 31 31 7, .vextT1D 0 1 2 8]

theorem test_witness_PremisesRunToEnd :
    progP1.map encode = [0xF2B10302, 0xF2B03100, 0xF2B00403] ∧
    (launchProgram .a32 0x8000 (progP1.map encode)).endAddr = 0x800C ∧
    (∀ i ∈ progP1, i.iset = (launchProgram .a32 0x8000 (progP1.map encode)).iset ∧ i.wellFormed = true) ∧
    (launchProgram .a32 0x8000 (progP1.map encode)).LaunchPremises (progP1.map encode) :=
  ⟨by decide, by decide, by decide, ⟨by decide, by decide, by decide, ⟨by decide, by decide⟩, by decide⟩⟩
theorem test_witness_PlacedProgramEndsOrFaults :
    progP3.map encode = [0xEFF101A2, 0xEFFEEFE0, 0xEFFFF7AF, 0xEFB10802] ∧
    (launchProgram .t32 0x2002 (progP3.map encode)).endAddr = 0x2012 ∧
    (∀ i ∈ progP3, i.iset = (launchProgram .t32 0x2002 (progP3.map encode)).iset) ∧
    (launchProgram .t32 0x2002 (progP3.map encode)).LaunchPremises (progP3.map encode) :=
  ⟨by decide, by decide, by decide, ⟨by decide, by decide, by decide, ⟨by decide, by decide⟩, by decide⟩⟩

end Sys2Proof.Tests
end

section
/-! The bits of an encoded word, read box by box (R61, R62). -/

namespace Sys2Proof

/-! ## Two rules for reading a box -/

/-- A box holds a value when the word's bits, counted from the lowest bit of the box, are those of the value. -/
theorem extractLsb'_eq_of_getLsbD {w : Word} {lo len : Nat} {v : BitVec len}
    (h : ∀ j < len, w.getLsbD (lo + j) = v.getLsbD j) : w.extractLsb' lo len = v := by
  apply BitVec.eq_of_getLsbD_eq
  intro j hj
  simp only [BitVec.getLsbD_extractLsb', hj, h j hj, decide_true, Bool.true_and]

theorem extractLsb'_one {w : Nat} (x : BitVec w) (lo : Nat) : x.extractLsb' lo 1 = BitVec.ofBool (x.getLsbD lo) := by
  apply BitVec.eq_of_getLsbD_eq
  intro j hj
  obtain rfl : j = 0 := by omega
  simp

/-! ## The boxes, from bit 31 down -/

@[simp] theorem encode_fixedTop (i : Instr) : (encode i).extractLsb' 23 9 = fixedTop i.iset := by
  refine extractLsb'_eq_of_getLsbD fun j hj => ?_
  simp (disch := omega) only [encode, encodeFields_getLsbD, if_neg, Nat.add_sub_cancel_left]

@[simp] theorem encode_D (i : Instr) : (encode i).extractLsb' 22 1 = i.d.extractLsb' 4 1 := by
  rw [extractLsb'_one, extractLsb'_one, encode, encodeFields_getLsbD]
  rfl

@[simp] theorem encode_bits21_20 (i : Instr) : (encode i).extractLsb' 20 2 = 0b11#2 := by
  refine extractLsb'_eq_of_getLsbD fun j hj => ?_
  simp (disch := omega) only [encode, encodeFields_getLsbD, if_neg, if_pos]
  interval_cases j <;> rfl

@[simp] theorem encode_Vn (i : Instr) : (encode i).extractLsb' 16 4 = i.n.extractLsb' 0 4 := by
  refine extractLsb'_eq_of_getLsbD fun j hj => ?_
  simp (disch := omega) only [encode, encodeFields_getLsbD, if_neg, if_pos]
  simp [hj]

@[simp] theorem encode_Vd (i : Instr) : (encode i).extractLsb' 12 4 = i.d.extractLsb' 0 4 := by
  refine extractLsb'_eq_of_getLsbD fun j hj => ?_
  simp (disch := omega) only [encode, encodeFields_getLsbD, if_neg, if_pos]
  simp [hj]

@[simp] theorem encode_imm4 (i : Instr) : (encode i).extractLsb' 8 4 = i.imm4 := by
  refine extractLsb'_eq_of_getLsbD fun j hj => ?_
  simp (disch := omega) only [encode, encodeFields_getLsbD, if_neg, if_pos, Nat.add_sub_cancel_left]

@[simp] theorem encode_N (i : Instr) : (encode i).extractLsb' 7 1 = i.n.extractLsb' 4 1 := by
  rw [extractLsb'_one, extractLsb'_one, encode, encodeFields_getLsbD]
  rfl

@[simp] theorem encode_Q (i : Instr) : (encode i).getLsbD 6 = i.quadword := by
  rw [encode, encodeFields_getLsbD]
  rfl

@[simp] theorem encode_M (i : Instr) : (encode i).extractLsb' 5 1 = i.m.extractLsb' 4 1 := by
  rw [extractLsb'_one, extractLsb'_one, encode, encodeFields_getLsbD]
  rfl

@[simp] theorem encode_bit4 (i : Instr) : (encode i).extractLsb' 4 1 = 0b0#1 := by
  rw [extractLsb'_one, encode, encodeFields_getLsbD]
  rfl

@[simp] theorem encode_Vm (i : Instr) : (encode i).extractLsb' 0 4 = i.m.extractLsb' 0 4 := by
  refine extractLsb'_eq_of_getLsbD fun j hj => ?_
  simp (disch := omega) only [encode, encodeFields_getLsbD, if_pos]
  simp [hj]

/-- The first four bits are the upper four of the fixed nine (R61, R62). -/
theorem encode_bits31_28 (i : Instr) : (encode i).extractLsb' 28 4 = (fixedTop i.iset).extractLsb' 5 4 := by
  rw [← encode_fixedTop]
  refine extractLsb'_eq_of_getLsbD fun j hj => ?_
  have hj9 : 5 + j < 9 := by omega
  simp only [BitVec.getLsbD_extractLsb', hj, hj9, decide_true, Bool.true_and, ← Nat.add_assoc]

/-! ## Boxes side by side -/

/-- The upper halfword is its four boxes (R62). -/
theorem encode_upperHalf (i : Instr) :
    (encode i).extractLsb' 16 16 =
      fixedTop i.iset ++ i.d.extractLsb' 4 1 ++ 0b11#2 ++ i.n.extractLsb' 0 4 := by
  rw [← encode_fixedTop, ← encode_D, ← encode_bits21_20 i, ← encode_Vn]
  simp (disch := omega) only [BitVec.extractLsb'_append_extractLsb'_eq_extractLsb']

/-- The lower halfword is its seven boxes (R62). -/
theorem encode_lowerHalf (i : Instr) :
    (encode i).extractLsb' 0 16 =
      i.d.extractLsb' 0 4 ++ i.imm4 ++ i.n.extractLsb' 4 1 ++ BitVec.ofBool i.quadword ++ i.m.extractLsb' 4 1
        ++ 0b0#1 ++ i.m.extractLsb' 0 4 := by
  rw [← encode_Vd, ← encode_imm4, ← encode_N, ← encode_Q, ← extractLsb'_one, ← encode_M, ← encode_bit4 i,
    ← encode_Vm]
  simp (disch := omega) only [BitVec.extractLsb'_append_extractLsb'_eq_extractLsb']

/-- Below the fixed nine bits the two diagrams agree (R61, R62). -/
theorem encode_ofFields_low23 (k k' : ISet) (q : Bool) (d n m : DNum) (imm4 : BitVec 4) :
    (encode (Instr.ofFields k q d n m imm4)).extractLsb' 0 23 =
      (encode (Instr.ofFields k' q d n m imm4)).extractLsb' 0 23 := by
  refine extractLsb'_eq_of_getLsbD fun j hj => ?_
  simp only [encode, ofFields_iset, ofFields_quadword, ofFields_d, ofFields_n, ofFields_m, ofFields_imm4,
    BitVec.getLsbD_extractLsb', encodeFields_getLsbD, Nat.zero_add, hj, if_true, decide_true, Bool.true_and]

/-! ## The operand encoder -/

theorem classBase_eq_encodeFields (k : ISet) : classBase k = encodeFields k false 0 0 0 0 := by
  cases k <;> decide

/-- The shifts and ORs of R83 put every field into its box. -/
theorem shifted_or_eq_encodeFields (k : ISet) (q : Bool) (d n m : DNum) (imm4 : BitVec 4) :
    classBase k ||| (BitVec.ofNat 32 (d.toNat / 2 ^ 4) <<< 22) ||| (BitVec.ofNat 32 (n.toNat % 2 ^ 4) <<< 16)
      ||| (BitVec.ofNat 32 (d.toNat % 2 ^ 4) <<< 12) ||| (BitVec.ofNat 32 imm4.toNat <<< 8)
      ||| (BitVec.ofNat 32 (n.toNat / 2 ^ 4) <<< 7) ||| (BitVec.ofNat 32 q.toNat <<< 6)
      ||| (BitVec.ofNat 32 (m.toNat / 2 ^ 4) <<< 5) ||| BitVec.ofNat 32 (m.toNat % 2 ^ 4)
    = encodeFields k q d n m imm4 := by
  apply BitVec.eq_of_getLsbD_eq
  intro j hj
  simp only [classBase_eq_encodeFields, encodeFields_getLsbD, BitVec.getLsbD_or, BitVec.getLsbD_shiftLeft,
    BitVec.getLsbD_ofNat, Nat.testBit_div_two_pow, Nat.testBit_mod_two_pow, BitVec.testBit_toNat,
    Nat.testBit_bool_toNat]
  interval_cases j <;> simp

/-- R83's requirements as ranges. -/
theorem operandsEncodable_iff {q : Bool} {rd rn rm imm : Nat} :
    operandsEncodable q rd rn rm imm = true ↔
      rd ≤ 31 ∧ rn ≤ 31 ∧ rm ≤ 31 ∧ (q = false → imm ≤ 7) ∧
        (q = true → imm ≤ 15 ∧ rd % 2 = 0 ∧ rn % 2 = 0 ∧ rm % 2 = 0) := by
  cases q <;> simp [operandsEncodable, and_assoc]

theorem operandsEncodable_lt {q : Bool} {rd rn rm imm : Nat} (h : operandsEncodable q rd rn rm imm = true) :
    rd < 32 ∧ rn < 32 ∧ rm < 32 ∧ imm < 16 := by
  obtain ⟨hd, hn, hm, hdouble, hquad⟩ := operandsEncodable_iff.mp h
  have himm : imm ≤ 15 := by
    cases q with
    | false => exact (hdouble rfl).trans (by decide)
    | true => exact (hquad rfl).1
  omega

/-- Where its requirements are met, R83's encoder gives the word of the instruction with those operands. -/
theorem encodeOperands_eq_encode {q : Bool} {rd rn rm imm : Nat} (k : ISet)
    (h : operandsEncodable q rd rn rm imm = true) :
    encodeOperands k q rd rn rm imm =
      some (encode (Instr.ofFields k q (.ofNat 5 rd) (.ofNat 5 rn) (.ofNat 5 rm) (.ofNat 4 imm))) := by
  obtain ⟨hd, hn, hm, himm⟩ := operandsEncodable_lt h
  have hword := shifted_or_eq_encodeFields k q (.ofNat 5 rd) (.ofNat 5 rn) (.ofNat 5 rm) (.ofNat 4 imm)
  simp only [BitVec.toNat_ofNat, Nat.reducePow, Nat.mod_eq_of_lt hd, Nat.mod_eq_of_lt hn, Nat.mod_eq_of_lt hm,
    Nat.mod_eq_of_lt himm] at hword
  simp only [encodeOperands, if_pos h, hword, encode, ofFields_iset, ofFields_quadword, ofFields_d, ofFields_n,
    ofFields_m, ofFields_imm4]

/-- A doubleword form with an immediate above 7 is UNDEFINED for its immediate (R69). -/
theorem undefCause_doubleword_of_imm4_gt {i : Instr} (hq : i.quadword = false) (himm : 7 < i.imm4.toNat) :
    i.undefCause = some .doublewordImmediate := by
  have hbit : i.imm4.getLsbD 3 ≠ false := fun h => by
    have := (getLsbD_three_eq_false_iff _).mp h
    omega
  simp only [Instr.undefCause, hq, Bool.eq_true_of_not_eq_false hbit, if_true, Bool.false_eq_true, if_false]

end Sys2Proof
end

section
/-! What the assembler makes of a line (R75 to R81, R83). -/

namespace Sys2Proof.Machine

/-- The instruction a line names, when its immediate is in range. -/
def AsmLine.instr (k : ISet) (l : AsmLine) : Instr :=
  Instr.ofFields k l.regs.isQuad (.ofNat 5 l.regs.rd) (.ofNat 5 l.regs.rn) (.ofNat 5 l.regs.rm) (.ofNat 4 l.imm)

theorem AsmRegs.maxImm_lt (r : AsmRegs) : r.maxImm < 16 := by
  cases r <;> simp [maxImm]

/-- The registers of a line always meet R83's requirements, so the immediate decides (R79, R80). -/
theorem AsmRegs.operandsEncodable_iff_imm (r : AsmRegs) (imm : Nat) :
    operandsEncodable r.isQuad r.rd r.rn r.rm imm = true ↔ imm ≤ r.maxImm := by
  rw [operandsEncodable_iff]
  cases r with
  | doubleword dd dn dm =>
    have hd := (dd.getD dn).isLt
    have hn := dn.isLt
    have hm := dm.isLt
    simp only [isQuad, rd, rn, rm, maxImm, forall_const, Bool.false_eq_true, false_implies, and_true]
    omega
  | quadword qd qn qm =>
    have hd := (qd.getD qn).isLt
    have hn := qn.isLt
    have hm := qm.isLt
    simp only [isQuad, rd, rn, rm, maxImm, forall_const, Bool.true_eq_false, false_implies, true_and]
    omega

theorem AsmLine.instr_imm4_toNat (k : ISet) {l : AsmLine} (h : l.imm ≤ l.regs.maxImm) :
    (l.instr k).imm4.toNat = l.imm := by
  have := l.regs.maxImm_lt
  rw [AsmLine.instr, ofFields_imm4, BitVec.toNat_ofNat, Nat.mod_eq_of_lt (by omega)]

/-- An admissible line assembles to the word of its instruction when its immediate is in range (R80). -/
theorem assemble_eq_encode {k : ISet} {block : Option Cond} {l : AsmLine} (hc : condError k block l.cond = none)
    (hq : l.qual ≠ some .narrow) (himm : l.imm ≤ l.regs.maxImm) :
    assemble k block l = .ok (encode (l.instr k)) := by
  simp only [assemble, hc, if_neg hq, encodeOperands_eq_encode k ((l.regs.operandsEncodable_iff_imm l.imm).mpr himm),
    AsmLine.instr]

/-- An admissible line is rejected when its immediate is out of range (R80). -/
theorem assemble_eq_immOutOfRange {k : ISet} {block : Option Cond} {l : AsmLine}
    (hc : condError k block l.cond = none) (hq : l.qual ≠ some .narrow) (himm : l.regs.maxImm < l.imm) :
    assemble k block l = .error .immOutOfRange := by
  have hbad : operandsEncodable l.regs.isQuad l.regs.rd l.regs.rn l.regs.rm l.imm ≠ true := fun h =>
    absurd ((l.regs.operandsEncodable_iff_imm l.imm).mp h) (Nat.not_le.mpr himm)
  simp only [assemble, hc, if_neg hq, encodeOperands, if_neg hbad]

/-- Only an admissible line with an immediate in range assembles, and to the word of its instruction. -/
theorem assemble_ok_iff {k : ISet} {block : Option Cond} {l : AsmLine} {w : Word} :
    assemble k block l = .ok w ↔
      condError k block l.cond = none ∧ l.qual ≠ some .narrow ∧ l.imm ≤ l.regs.maxImm ∧ w = encode (l.instr k) := by
  constructor
  · intro h
    have hc : condError k block l.cond = none := by
      cases hc : condError k block l.cond with
      | none => rfl
      | some e => simp [assemble, hc] at h
    have hq : l.qual ≠ some .narrow := fun hq => by simp [assemble, hc, hq] at h
    have himm : l.imm ≤ l.regs.maxImm := Nat.not_lt.mp fun himm => by
      simp [assemble_eq_immOutOfRange hc hq himm] at h
    rw [assemble_eq_encode hc hq himm] at h
    exact ⟨hc, hq, himm, (Except.ok.inj h).symm⟩
  · rintro ⟨hc, hq, himm, rfl⟩
    exact assemble_eq_encode hc hq himm

/-- The bytes an immediate of at most 7 shifts by (R67). -/
theorem position_mem_doubleword {b : BitVec 4} (h : b.toNat ≤ 7) :
    position b ∈ [0, 8, 16, 24, 32, 40, 48, 56] := by
  revert b
  decide

/-- The values of `position` over the whole of `imm4` (R67). -/
theorem position_mem_quadword (b : BitVec 4) :
    position b ∈ [0, 8, 16, 24, 32, 40, 48, 56, 64, 72, 80, 88, 96, 104, 112, 120] := by
  revert b
  decide

end Sys2Proof.Machine
end

section
/-! The encoding obligations: bit `Q`, the two diagrams, the immediate. -/

namespace Sys2Proof.Proofs

open Sys2Proof.Machine

/-- Settles O5: the decoder passes bit 6 to `Instr.ofFields`, which the instruction set and that bit select. -/
theorem qBitSelectsEncoding : Obligations.QBitSelectsEncoding := by
  intro k w i hdec
  obtain ⟨-, rfl⟩ := decode_ok_iff.mp hdec
  refine ⟨?_, ?_, ?_, ?_⟩ <;> (rintro rfl hQ; rw [hQ]; exact ⟨_, _, _, _, rfl⟩)

/-- Settles O6, box by box; bits 31:28 are the top of the nine fixed bits. -/
theorem formatA1Diagram : Obligations.FormatA1Diagram := by
  intro i hk
  have htop : fixedTop i.iset = 0b111100101#9 := by rw [hk]; rfl
  refine ⟨(encode_fixedTop i).trans htop, encode_D i, encode_bits21_20 i, encode_Vn i, encode_Vd i, encode_imm4 i,
    encode_N i, encode_Q i, encode_M i, encode_bit4 i, encode_Vm i, ?_⟩
  rw [encode_bits31_28, htop]
  rfl

/-- Settles O7: the boxes, the halfwords they make side by side, and the bits below the fixed nine. -/
theorem formatT1Diagram : Obligations.FormatT1Diagram := by
  intro d n m imm4 q
  simp only [encode_fixedTop, encode_D, encode_bits21_20, encode_Vn, encode_Vd, encode_imm4, encode_N, encode_Q,
    encode_M, encode_bit4, encode_Vm, encode_upperHalf, encode_lowerHalf, ofFields_iset, ofFields_quadword, ofFields_d,
    ofFields_n, ofFields_m, ofFields_imm4, fixedTop, true_and]
  exact encode_ofFields_low23 ..

/-- Settles O8: a decoded word by the fields the decoder reads, an assembled one by the `imm4` box of its word. -/
theorem immediateIsByteCount : Obligations.ImmediateIsByteCount := by
  constructor
  · intro k w i hdec
    obtain ⟨-, hi⟩ := decode_ok_iff.mp hdec
    have himm : i.imm4 = w.extractLsb' 8 4 := by rw [hi, ofFields_imm4, fieldImm4]
    have hQ : i.quadword = w.getLsbD 6 := by rw [hi, ofFields_quadword]
    exact ⟨himm, by rw [himm, position], by rw [hQ],
      fun hdef hq => position_mem_doubleword ((undefCause_none_doubleword hq).mp hdef),
      fun _ _ => position_mem_quadword i.imm4⟩
  · intro k block l w hasm
    obtain ⟨-, -, himm, rfl⟩ := assemble_ok_iff.mp hasm
    rw [encode_imm4, AsmLine.instr_imm4_toNat k himm]

/-- Settles O17: in range a line assembles to the word of its instruction, whose `imm4` is the line's immediate; out of
range it is rejected, and a doubleword word with such an immediate is UNDEFINED. -/
theorem assemblerImmediateRange : Obligations.AssemblerImmediateRange := by
  refine ⟨fun k block l hc hq => ⟨fun himm => ?_, assemble_eq_immOutOfRange hc hq⟩, fun _ _ _ => rfl, fun _ _ _ => rfl,
    fun k w i hdec => ?_⟩
  · have hfield : (fieldImm4 (encode (l.instr k))).toNat = l.imm := by
      rw [fieldImm4, encode_imm4, AsmLine.instr_imm4_toNat k himm]
    exact ⟨_, assemble_eq_encode hc hq himm, hfield, by rw [position, hfield]⟩
  · obtain ⟨-, rfl⟩ := decode_ok_iff.mp hdec
    refine ⟨Nat.le_of_lt_succ (fieldImm4 w).isLt, fun hq h7 => undefCause_doubleword_of_imm4_gt hq ?_⟩
    rwa [ofFields_imm4]

end Sys2Proof.Proofs
end

section
/-! A VEXT whose condition, UNDEFINED test, enable check and room all hold (R90), and what its doubleword form leaves in
`D[d]` (R94). -/

namespace Sys2Proof.Machine

/-- A defined VEXT whose condition passed completes: its operation is done and `pc` advanced (R90, R98). -/
theorem exec_completes {i : Instr} {s : State} (hdef : i.undefCause = none) (hp : conditionPassed i.iset s = true)
    (hen : s.AdvSimdEnabled) (hroom : s.NoWrap) :
    exec i s = .next { operationOf i (useCondition i.iset s) with pc := s.pc + 4 } := by
  have hr : pcHasRoom (operationOf i (useCondition i.iset s)).pc = true := by simpa using hroom
  rw [exec_eq_stepVext, stepVext_completes hp hdef hen hr, operationOf_pc, useCondition_pc]

@[simp] theorem readD_doublewordOp (d n m : DNum) (imm4 : BitVec 4) (s : State) :
    readD d (doublewordOp d n m imm4 s) = extractDoubleword (readD n s) (readD m s) imm4 :=
  readD_writeD_same ..

/-- The destination after a doubleword operation that completes: the slice of the two sources' values before it. -/
theorem exec_doubleword_readD {i : Instr} {s : State} (hq : i.quadword = false) (himm : i.imm4.toNat ≤ 7)
    (hp : conditionPassed i.iset s = true) (hen : s.AdvSimdEnabled) (hroom : s.NoWrap) :
    ∃ t, exec i s = .next t ∧ readD i.d t = extractDoubleword (readD i.n s) (readD i.m s) i.imm4 := by
  refine ⟨_, exec_completes ((undefCause_none_doubleword hq).mpr himm) hp hen hroom, ?_⟩
  refine (readD_congr (s := operationOf i (useCondition i.iset s)) rfl i.d).trans ?_
  rw [operationOf_doubleword hq, readD_doublewordOp, readD_useCondition, readD_useCondition]

end Sys2Proof.Machine
end

section
/-! The doubleword result obligation. -/

namespace Sys2Proof.Proofs

open Sys2Proof.Machine

/-- Settles O23: the step leaves the slice at `position` in `D[d]`, and that slice is the shift's low half. -/
theorem doublewordResult : Obligations.DoublewordResult := by
  intro i s hq himm hp hen hroom c
  obtain ⟨t, hexec, hread⟩ := exec_doubleword_readD hq himm hp hen hroom
  have hslice : readD i.d t = c.extractLsb' (position i.imm4) 64 := hread
  have hbound : position i.imm4 + 63 ≤ 119 := by
    rw [position]
    omega
  have hshift : c.extractLsb' (position i.imm4) 64 = (c >>> (8 * i.imm4.toNat)).extractLsb' 0 64 := by
    rw [position, ← BitVec.setWidth_ushiftRight_eq_extractLsb, BitVec.setWidth_eq_extractLsb' (by decide)]
  exact ⟨BitVec.extractLsb'_append_eq_right, BitVec.extractLsb'_append_eq_left, hbound, t, hexec, hslice,
    hslice.trans hshift⟩

end Sys2Proof.Proofs
end

section
/-! The decoder on encoded words and the encoder on decoded words (R71, R83), through the boxes of the diagram. -/

namespace Sys2Proof

/-! ## Slices -/

/-- A slice of a slice is a slice. -/
theorem extractLsb'_extractLsb' {w : Nat} (x : BitVec w) {lo len lo' len' : Nat} (h : lo' + len' ≤ len) :
    (x.extractLsb' lo len).extractLsb' lo' len' = x.extractLsb' (lo + lo') len' := by
  apply BitVec.eq_of_getLsbD_eq
  intro j hj
  simp only [BitVec.getLsbD_extractLsb', hj, show lo' + j < len by omega, decide_true, Bool.true_and, Nat.add_assoc]

/-- A slice of a masked word is the slice of the word where the mask's slice is all ones. -/
theorem extractLsb'_and_of_ones {w lo len : Nat} (x : BitVec w) {mask : BitVec w}
    (h : mask.extractLsb' lo len = .allOnes len) : (x &&& mask).extractLsb' lo len = x.extractLsb' lo len := by
  rw [BitVec.extractLsb'_and, h, BitVec.and_allOnes]

/-- A 5-bit number is its upper bit and its four lower bits side by side (R66). -/
theorem dnum_eq_boxes (r : DNum) : r.extractLsb' 4 1 ++ r.extractLsb' 0 4 = r := by
  exact BitVec.extractLsb'_append_extractLsb' (w := 1)

/-! ## Decoding an encoded word -/

@[simp] theorem fieldD_encode (i : Instr) : fieldD (encode i) = i.d := by
  rw [fieldD, encode_D, encode_Vd, dnum_eq_boxes]

@[simp] theorem fieldN_encode (i : Instr) : fieldN (encode i) = i.n := by
  rw [fieldN, encode_N, encode_Vn, dnum_eq_boxes]

@[simp] theorem fieldM_encode (i : Instr) : fieldM (encode i) = i.m := by
  rw [fieldM, encode_M, encode_Vm, dnum_eq_boxes]

@[simp] theorem fieldImm4_encode (i : Instr) : fieldImm4 (encode i) = i.imm4 := encode_imm4 i

open Laws.FixedBits in
/-- The class mask is the table's mask without the bit `Q` (R65). -/
theorem and_tableMask_and_classMask (w : Word) : w &&& tableMask &&& classMask = w &&& classMask := by
  rw [BitVec.and_assoc]
  rfl

/-- An encoded word has the fixed bits of its class (R65). -/
theorem encode_and_classMask (i : Instr) : encode i &&& classMask = classBase i.iset := by
  rw [← and_tableMask_and_classMask, encode, Laws.FixedBits.encodeFields_masked]
  cases i.iset <;> cases i.quadword <;> decide

/-- The decoder is a left inverse of the encoder, at every value of every operand (R83). -/
theorem decode_encode (i : Instr) : decode i.iset (encode i) = .ok i := by
  rw [decode_ok_iff, encode_Q, fieldD_encode, fieldN_encode, fieldM_encode, fieldImm4_encode, ofFields_eta]
  exact ⟨encode_and_classMask i, rfl⟩

/-! ## Encoding a decoded word -/

theorem fieldD_bit4 (w : Word) : (fieldD w).extractLsb' 4 1 = w.extractLsb' 22 1 := BitVec.extractLsb'_append_eq_left
theorem fieldD_low (w : Word) : (fieldD w).extractLsb' 0 4 = w.extractLsb' 12 4 := BitVec.extractLsb'_append_eq_right
theorem fieldN_bit4 (w : Word) : (fieldN w).extractLsb' 4 1 = w.extractLsb' 7 1 := BitVec.extractLsb'_append_eq_left
theorem fieldN_low (w : Word) : (fieldN w).extractLsb' 0 4 = w.extractLsb' 16 4 := BitVec.extractLsb'_append_eq_right
theorem fieldM_bit4 (w : Word) : (fieldM w).extractLsb' 4 1 = w.extractLsb' 5 1 := BitVec.extractLsb'_append_eq_left
theorem fieldM_low (w : Word) : (fieldM w).extractLsb' 0 4 = w.extractLsb' 0 4 := BitVec.extractLsb'_append_eq_right

/-- The three fixed boxes of a word of a class (R61, R62). -/
theorem fixedBoxes_of_class {k : ISet} {w : Word} (h : w &&& classMask = classBase k) :
    w.extractLsb' 23 9 = fixedTop k ∧ w.extractLsb' 20 2 = 0b11#2 ∧ w.extractLsb' 4 1 = 0b0#1 := by
  rw [← extractLsb'_and_of_ones (lo := 23) (len := 9) w (mask := classMask) (by decide),
    ← extractLsb'_and_of_ones (lo := 20) (len := 2) w (mask := classMask) (by decide),
    ← extractLsb'_and_of_ones (lo := 4) (len := 1) w (mask := classMask) (by decide), h]
  cases k <;> decide

/-- A word of a class is the diagram filled with its own fields: every bit of it is in a box. -/
theorem encodeFields_of_class {k : ISet} {w : Word} (h : w &&& classMask = classBase k) :
    encodeFields k (w.getLsbD 6) (fieldD w) (fieldN w) (fieldM w) (fieldImm4 w) = w := by
  obtain ⟨htop, h11, h0⟩ := fixedBoxes_of_class h
  rw [encodeFields, ← htop, ← h11, ← h0, fieldD_bit4, fieldD_low, fieldN_bit4, fieldN_low, fieldM_bit4, fieldM_low,
    fieldImm4, ← extractLsb'_one]
  simp (disch := omega) only [BitVec.extractLsb'_append_extractLsb'_eq_extractLsb']
  exact BitVec.extractLsb'_eq_self

/-- A word that decodes is the word of the instruction it decodes to, which is of that instruction set (R83). -/
theorem encode_of_decode {k : ISet} {w : Word} {i : Instr} (h : decode k w = .ok i) : i.iset = k ∧ encode i = w := by
  obtain ⟨hclass, rfl⟩ := decode_ok_iff.mp h
  refine ⟨ofFields_iset .., ?_⟩
  simpa only [encode, ofFields_iset, ofFields_quadword, ofFields_d, ofFields_n, ofFields_m, ofFields_imm4]
    using encodeFields_of_class hclass

/-- A word decodes to an instruction exactly when it is that instruction's word. -/
theorem decode_ok_iff_encode {k : ISet} {w : Word} {i : Instr} : decode k w = .ok i ↔ i.iset = k ∧ encode i = w :=
  ⟨encode_of_decode, by rintro ⟨rfl, rfl⟩; exact decode_encode i⟩

/-! ## The fields as numbers -/

/-- A bit above four bits counts sixteen (R66). -/
theorem toNat_ofBool_append (b : Bool) (v : BitVec 4) : (BitVec.ofBool b ++ v).toNat = 16 * b.toNat + v.toNat := by
  revert b v
  decide

theorem fieldD_toNat (w : Word) : (fieldD w).toNat = 16 * (w.getLsbD 22).toNat + (w.extractLsb' 12 4).toNat := by
  rw [fieldD, extractLsb'_one, toNat_ofBool_append]

theorem fieldN_toNat (w : Word) : (fieldN w).toNat = 16 * (w.getLsbD 7).toNat + (w.extractLsb' 16 4).toNat := by
  rw [fieldN, extractLsb'_one, toNat_ofBool_append]

theorem fieldM_toNat (w : Word) : (fieldM w).toNat = 16 * (w.getLsbD 5).toNat + (w.extractLsb' 0 4).toNat := by
  rw [fieldM, extractLsb'_one, toNat_ofBool_append]

/-! ## The causes of an UNDEFINED word -/

theorem undefCause_quadword {i : Instr} (h : i.quadword = true) :
    i.undefCause = if i.d.getLsbD 0 || i.n.getLsbD 0 || i.m.getLsbD 0 then some .oddQuadRegister else none := by
  rw [Instr.undefCause, if_pos h]

theorem undefCause_doubleword {i : Instr} (h : i.quadword = false) :
    i.undefCause = if i.imm4.getLsbD 3 then some .doublewordImmediate else none := by
  rw [Instr.undefCause, if_neg (by simp [h])]

/-- The assembler's ranges, form by form (R79, R80). -/
theorem wellFormed_doubleword {i : Instr} (h : i.quadword = false) : i.wellFormed = true ↔ i.imm4.toNat ≤ 7 := by
  cases i <;> simp_all [Instr.quadword, Instr.wellFormed, Instr.immInRange, Instr.regEncodes, Instr.imm4]

theorem wellFormed_quadword {i : Instr} (h : i.quadword = true) :
    i.wellFormed = true ↔ i.d.toNat % 2 = 0 ∧ i.n.toNat % 2 = 0 ∧ i.m.toNat % 2 = 0 := by
  have himm : i.imm4.toNat ≤ 15 := Nat.le_of_lt_succ i.imm4.isLt
  cases i <;>
    simp_all [Instr.quadword, Instr.wellFormed, Instr.immInRange, Instr.regEncodes, Instr.imm4, Instr.d, Instr.n,
      Instr.m, and_assoc]

/-- The UNDEFINED tests on bits and the assembler's ranges agree (R68, R69, R79, R80). -/
theorem undefCause_none_iff_wellFormed (i : Instr) : i.undefCause = none ↔ i.wellFormed = true := by
  cases hq : i.quadword with
  | false => rw [undefCause_none_doubleword hq, wellFormed_doubleword hq]
  | true => rw [undefCause_none_quadword hq, wellFormed_quadword hq]

/-! ## The two classes -/

theorem classBase_injective : ∀ {k k' : ISet}, classBase k = classBase k' → k = k'
  | .a32, .a32, _ => rfl
  | .t32, .t32, _ => rfl
  | .a32, .t32, h => absurd h (by decide)
  | .t32, .a32, h => absurd h (by decide)

/-- A word that decodes under one instruction set is rejected under the other (R65, R73). -/
theorem decode_other_iset {k k' : ISet} {w : Word} {i : Instr} (h : decode k w = .ok i) (hk : k ≠ k') :
    decode k' w = .error (.notVext w) := by
  obtain ⟨hclass, -⟩ := decode_ok_iff.mp h
  exact decode_error_iff.mpr ⟨fun h' => hk (classBase_injective (hclass.symm.trans h')), rfl⟩

/-! ## Bytes -/

/-- The bytes of a word, read back in the same instruction set, are the word (R44). -/
theorem exists_bytesOfWord (k : ISet) (w : Word) :
    ∃ b0 b1 b2 b3, bytesOfWord k w = [b0, b1, b2, b3] ∧ wordOfBytes k b0 b1 b2 b3 = w := by
  cases k <;> refine ⟨_, _, _, _, rfl, ?_⟩ <;> rw [wordOfBytes] <;>
    simp (disch := omega) only [BitVec.extractLsb'_append_extractLsb'_eq_extractLsb'] <;>
    exact BitVec.extractLsb'_eq_self

/-- Four bytes are the bytes of the word they spell (R44). -/
theorem bytesOfWord_wordOfBytes (k : ISet) (b0 b1 b2 b3 : Byte) :
    bytesOfWord k (wordOfBytes k b0 b1 b2 b3) = [b0, b1, b2, b3] := by
  cases k <;> rw [wordOfBytes, bytesOfWord] <;>
    simp (disch := omega) only [BitVec.extractLsb'_append_eq_of_add_le, BitVec.extractLsb'_append_eq_of_le] <;>
    simp only [Nat.reduceAdd, Nat.reduceSub, BitVec.extractLsb'_eq_self]

end Sys2Proof
end

section
/-! What the operand encoder and the assembler make of an instruction's own operands (R79 to R83). -/

namespace Sys2Proof

/-- The operand encoder answers only where its requirements hold. -/
theorem encodeOperands_eq_none (k : ISet) {q : Bool} {rd rn rm imm : Nat}
    (h : operandsEncodable q rd rn rm imm = false) : encodeOperands k q rd rn rm imm = none := by
  rw [encodeOperands, h, if_neg Bool.false_ne_true]

/-- The operands of an instruction meet R83's requirements exactly when it is defined. -/
theorem operandsEncodable_operands_iff (i : Instr) :
    operandsEncodable i.quadword i.d.toNat i.n.toNat i.m.toNat i.imm4.toNat = true ↔ i.undefCause = none := by
  have hd := i.d.isLt
  have hn := i.n.isLt
  have hm := i.m.isLt
  have himm := i.imm4.isLt
  rw [operandsEncodable_iff]
  cases hq : i.quadword with
  | false =>
    rw [undefCause_none_doubleword hq]
    simp only [forall_const, Bool.false_eq_true, false_implies, and_true]
    omega
  | true =>
    rw [undefCause_none_quadword hq]
    simp only [forall_const, Bool.true_eq_false, false_implies, true_and]
    omega

/-- R83's encoder on the operands of a defined instruction gives its word. -/
theorem encodeOperands_operands {i : Instr} (h : i.undefCause = none) :
    encodeOperands i.iset i.quadword i.d.toNat i.n.toNat i.m.toNat i.imm4.toNat = some (encode i) := by
  rw [encodeOperands_eq_encode _ ((operandsEncodable_operands_iff i).mpr h), BitVec.ofNat_toNat, BitVec.ofNat_toNat,
    BitVec.ofNat_toNat, BitVec.ofNat_toNat, BitVec.setWidth_eq, BitVec.setWidth_eq, BitVec.setWidth_eq,
    BitVec.setWidth_eq, ofFields_eta]

/-- Where its requirements are met, R83's word decodes to the very operands, and is not UNDEFINED. -/
theorem encodeOperands_decodes (k : ISet) {q : Bool} {rd rn rm imm : Nat}
    (h : operandsEncodable q rd rn rm imm = true) :
    ∃ w, encodeOperands k q rd rn rm imm = some w ∧ ∃ i, decode k w = .ok i ∧ i.quadword = q ∧ i.d.toNat = rd ∧
      i.n.toNat = rn ∧ i.m.toNat = rm ∧ i.imm4.toNat = imm ∧ i.undefCause = none := by
  obtain ⟨hd, hn, hm, himm⟩ := operandsEncodable_lt h
  let i := Instr.ofFields k q (.ofNat 5 rd) (.ofNat 5 rn) (.ofNat 5 rm) (.ofNat 4 imm)
  have hq : i.quadword = q := ofFields_quadword ..
  have hrd : i.d.toNat = rd := by rw [ofFields_d, BitVec.toNat_ofNat, Nat.mod_eq_of_lt hd]
  have hrn : i.n.toNat = rn := by rw [ofFields_n, BitVec.toNat_ofNat, Nat.mod_eq_of_lt hn]
  have hrm : i.m.toNat = rm := by rw [ofFields_m, BitVec.toNat_ofNat, Nat.mod_eq_of_lt hm]
  have hrimm : i.imm4.toNat = imm := by rw [ofFields_imm4, BitVec.toNat_ofNat, Nat.mod_eq_of_lt himm]
  have hdec : decode k (encode i) = .ok i := decode_ok_iff_encode.mpr ⟨ofFields_iset .., rfl⟩
  have hdef : i.undefCause = none := by
    rw [← operandsEncodable_operands_iff, hq, hrd, hrn, hrm, hrimm, h]
  exact ⟨encode i, encodeOperands_eq_encode k h, i, hdec, hq, hrd, hrn, hrm, hrimm, hdef⟩

/-- Of all operand tuples, only that of a defined word's instruction gives the word (R83). -/
theorem encodeOperands_eq_some_iff {k : ISet} {w : Word} {i : Instr} (hdec : decode k w = .ok i)
    (hdef : i.undefCause = none) {q : Bool} {rd rn rm imm : Nat} :
    encodeOperands k q rd rn rm imm = some w ↔
      q = i.quadword ∧ rd = i.d.toNat ∧ rn = i.n.toNat ∧ rm = i.m.toNat ∧ imm = i.imm4.toNat := by
  constructor
  · intro henc
    have hok : operandsEncodable q rd rn rm imm = true := Bool.eq_true_of_not_eq_false fun h => by
      simp [encodeOperands_eq_none k h] at henc
    obtain ⟨w', henc', i', hdec', hq, hd, hn, hm, himm, -⟩ := encodeOperands_decodes k hok
    obtain rfl : w' = w := Option.some.inj (henc'.symm.trans henc)
    obtain rfl : i' = i := Except.ok.inj (hdec'.symm.trans hdec)
    exact ⟨hq.symm, hd.symm, hn.symm, hm.symm, himm.symm⟩
  · rintro ⟨rfl, rfl, rfl, rfl, rfl⟩
    obtain ⟨rfl, rfl⟩ := encode_of_decode hdec
    exact encodeOperands_operands hdef

open Laws.FixedBits in
/-- A word is of the encoding that an instruction set and a bit `Q` select exactly when its bits under the table's mask
are those of the diagram with all operands zero (R65). -/
theorem exists_decode_ofFields_iff (k : ISet) (q : Bool) (w : Word) :
    (∃ d n m imm4, decode k w = .ok (Instr.ofFields k q d n m imm4)) ↔ w &&& tableMask = encodeFields k q 0 0 0 0 := by
  constructor
  · rintro ⟨d, n, m, imm4, hdec⟩
    obtain ⟨-, rfl⟩ := encode_of_decode hdec
    rw [encode, encodeFields_masked, ofFields_iset, ofFields_quadword]
  · intro hmask
    have hclass : w &&& classMask = classBase k := by
      rw [← and_tableMask_and_classMask, hmask]
      cases k <;> cases q <;> decide
    have hQ : w.getLsbD 6 = q := calc
      w.getLsbD 6 = (w &&& tableMask).getLsbD 6 := by simp [tableMask]
      _ = q := by rw [hmask, encodeFields_getLsbD]; rfl
    exact ⟨_, _, _, _, decode_ok_iff.mpr ⟨hclass, by rw [hQ]⟩⟩

end Sys2Proof

namespace Sys2Proof.Machine

/-! ## The printed line -/

theorem disassemble_of_defined {i : Instr} (h : i.undefCause = none) :
    disassemble i = some ⟨none, none, asmRegsOf i, i.imm4.toNat⟩ := by
  rw [disassemble, h]

theorem asmRegsOf_doubleword {i : Instr} (h : i.quadword = false) :
    asmRegsOf i = .doubleword (some i.d.toFin) i.n.toFin i.m.toFin := by
  rw [asmRegsOf, if_neg (by simp [h])]

theorem asmRegsOf_quadword {i : Instr} (h : i.quadword = true) :
    asmRegsOf i = .quadword (some (quadNum i.d).toFin) (quadNum i.n).toFin (quadNum i.m).toFin := by
  rw [asmRegsOf, if_pos h]

/-- Twice the number of a `Q` register is the even number that names it (R66, R79). -/
theorem two_mul_quadNum {r : DNum} (h : r.toNat % 2 = 0) : 2 * (quadNum r).toNat = r.toNat := by
  rw [← toNat_lowCell, lowCell_quadNum h]

/-- The names printed for a defined instruction stand for its own form and numbers (R79). -/
theorem asmRegsOf_numbers {i : Instr} (h : i.undefCause = none) :
    (asmRegsOf i).isQuad = i.quadword ∧ (asmRegsOf i).rd = i.d.toNat ∧ (asmRegsOf i).rn = i.n.toNat ∧
      (asmRegsOf i).rm = i.m.toNat := by
  cases hq : i.quadword with
  | false =>
    rw [asmRegsOf_doubleword hq]
    exact ⟨rfl, rfl, rfl, rfl⟩
  | true =>
    obtain ⟨hd, hn, hm⟩ := (undefCause_none_quadword hq).mp h
    rw [asmRegsOf_quadword hq]
    exact ⟨rfl, two_mul_quadNum hd, two_mul_quadNum hn, two_mul_quadNum hm⟩

/-- The printed line of a defined instruction assembles to its word (R79, R82). -/
theorem assemble_printed {i : Instr} (h : i.undefCause = none) :
    assemble i.iset none ⟨none, none, asmRegsOf i, i.imm4.toNat⟩ = .ok (encode i) := by
  obtain ⟨hq, hd, hn, hm⟩ := asmRegsOf_numbers h
  simp [assemble, condError, hq, hd, hn, hm, encodeOperands_operands h]

/-! ## Conditions and qualifiers -/

/-- A condition that is left out, `AL`, or in T32 the one the block supplies, is admitted (R77). -/
theorem condError_admitted {k : ISet} {block c : Option Cond}
    (h : c = none ∨ c = some .al ∨ (k = .t32 ∧ c = block)) : condError k block c = none := by
  obtain rfl | rfl | ⟨rfl, rfl⟩ := h
  · rfl
  · rfl
  · cases c with
    | none => rfl
    | some c => cases c <;> simp [condError]

/-- Any other condition is rejected, for the reason of the instruction set (R77). -/
theorem condError_t32_rejected {c : Cond} (hc : c ≠ .al) {block : Option Cond} (hb : block ≠ some c) :
    condError .t32 block (some c) = some .conditionNotFromITBlock := by
  cases c <;> simp_all [condError]

theorem condError_a32_rejected {c : Cond} (hc : c ≠ .al) (block : Option Cond) :
    condError .a32 block (some c) = some .mustBeUnconditional := by
  cases c <;> simp_all [condError]

/-- A rejected condition rejects the line. -/
theorem assemble_of_condError {k : ISet} {block : Option Cond} {l : AsmLine} {e : AsmError}
    (h : condError k block l.cond = some e) : assemble k block l = .error e := by
  rw [assemble, h]

/-- With an admitted condition the qualifier `.N` rejects the line (R78). -/
theorem assemble_narrow {k : ISet} {block : Option Cond} {l : AsmLine} (hc : condError k block l.cond = none)
    (hq : l.qual = some .narrow) : assemble k block l = .error .noNarrowEncoding := by
  simp only [assemble, hc, if_pos hq]

/-- Two lines with the same operands and admitted condition and qualifier assemble alike (R77, R78). -/
theorem assemble_congr {k : ISet} {block block' : Option Cond} {l l' : AsmLine}
    (hc : condError k block l.cond = none) (hc' : condError k block' l'.cond = none) (hq : l.qual ≠ some .narrow)
    (hq' : l'.qual ≠ some .narrow) (hregs : l'.regs = l.regs) (himm : l'.imm = l.imm) :
    assemble k block l = assemble k block' l' := by
  simp only [assemble, hc, hc', if_neg hq, if_neg hq', hregs, himm]

end Sys2Proof.Machine
end

section
/-! The obligations about words, operands and lines. -/

namespace Sys2Proof.Proofs

open Sys2Proof.Machine

/-- Settles O2: bit 6 and the fields of an encoded word are the instruction's, and its fixed bits those of the class. -/
theorem decodeOfEncode : Obligations.DecodeOfEncode := decode_encode

/-- Settles O3: the fixed boxes and the fields that the decoder reads make up the whole word. -/
theorem encodeOfDecode : Obligations.EncodeOfDecode := fun _ _ _ hdec => encode_of_decode hdec

/-- Settles O1 by evaluation of the decoder. -/
theorem listedWordsDecode : Obligations.ListedWordsDecode := by
  unfold Obligations.ListedWordsDecode
  decide

/-- Settles O4: `exists_decode_ofFields_iff` at each of the four encodings. -/
theorem maskAndMatchSelect : Obligations.MaskAndMatchSelect := fun w =>
  ⟨exists_decode_ofFields_iff .a32 false w, exists_decode_ofFields_iff .a32 true w,
    exists_decode_ofFields_iff .t32 false w, exists_decode_ofFields_iff .t32 true w⟩

/-- Settles O9: the fields as numbers; in a defined quadword form they are even. -/
theorem registerNumbersOfWord : Obligations.RegisterNumbersOfWord := by
  intro k w i hdec
  obtain ⟨-, hi⟩ := decode_ok_iff.mp hdec
  refine ⟨?_, ?_, ?_, fun hq hdef => ?_⟩
  · rw [hi, ofFields_d, fieldD_toNat]
  · rw [hi, ofFields_n, fieldN_toNat]
  · rw [hi, ofFields_m, fieldM_toNat]
  · obtain ⟨hd, hn, hm⟩ := (undefCause_none_quadword hq).mp hdef
    exact ⟨(two_mul_quadNum hd).symm, (two_mul_quadNum hn).symm, (two_mul_quadNum hm).symm⟩

/-- Settles O10: bit 0 of `D:Vd`, `N:Vn` and `M:Vm` is bit 12, 16 and 0 of the word. -/
theorem quadwordUndefinedTest : Obligations.QuadwordUndefinedTest := by
  intro k w i hdec hQ
  obtain ⟨-, hi⟩ := decode_ok_iff.mp hdec
  have hq : i.quadword = true := by rw [hi, ofFields_quadword, hQ]
  have hd : i.d.getLsbD 0 = w.getLsbD 12 := by rw [hi, ofFields_d, fieldD_getLsbD]; rfl
  have hn : i.n.getLsbD 0 = w.getLsbD 16 := by rw [hi, ofFields_n, fieldN_getLsbD]; rfl
  have hm : i.m.getLsbD 0 = w.getLsbD 0 := by rw [hi, ofFields_m, fieldM_getLsbD]; rfl
  refine ⟨?_, undefCause_none_quadword hq, ?_⟩ <;> rw [undefCause_quadword hq]
  · simp only [hd, hn, hm, Option.ite_none_right_eq_some, and_true, Bool.or_eq_true, or_assoc]
  · exact (ite_eq_or_eq ..).symm

/-- Settles O11: bit 3 of `imm4` is bit 11 of the word. -/
theorem doublewordUndefinedTest : Obligations.DoublewordUndefinedTest := by
  intro k w i hdec hQ
  obtain ⟨-, hi⟩ := decode_ok_iff.mp hdec
  have hq : i.quadword = false := by rw [hi, ofFields_quadword, hQ]
  have himm : i.imm4.getLsbD 3 = w.getLsbD 11 := by rw [hi, ofFields_imm4, fieldImm4_getLsbD]; rfl
  refine ⟨?_, undefCause_none_doubleword hq, ?_⟩ <;> rw [undefCause_doubleword hq]
  · simp only [himm, Option.ite_none_right_eq_some, and_true]
  · exact (ite_eq_or_eq ..).symm

/-- Settles O12, form by form. -/
theorem undefinedExactlyIllFormed : Obligations.UndefinedExactlyIllFormed := undefCause_none_iff_wellFormed

/-- Settles O13: the fixed bits of the two classes differ. -/
theorem classesShareNoWord : Obligations.ClassesShareNoWord := fun _ _ =>
  ⟨fun hdec => decode_other_iset hdec (by decide), fun hdec => decode_other_iset hdec (by decide)⟩

/-- Settles O14: the five bits are the upper five of the nine fixed ones, 11101. -/
theorem t1WordsAreWide : Obligations.T1WordsAreWide := by
  intro w i hdec
  obtain ⟨hclass, -⟩ := decode_ok_iff.mp hdec
  obtain ⟨htop, -, -⟩ := fixedBoxes_of_class hclass
  have hhalf : (w.extractLsb' 16 16).extractLsb' 11 5 = w.extractLsb' 27 5 := extractLsb'_extractLsb' w (by omega)
  have hbox : (w.extractLsb' 23 9).extractLsb' 4 5 = w.extractLsb' 27 5 := extractLsb'_extractLsb' w (by omega)
  rw [t32IsWide, hhalf, ← hbox, htop]
  rfl

/-- Settles O15, by the instruction set. -/
theorem bytesSpellTheWord : Obligations.BytesSpellTheWord := by
  intro k w
  obtain ⟨b0, b1, b2, b3, hbytes, hword⟩ := exists_bytesOfWord k w
  refine ⟨b0, b1, b2, b3, hbytes, ?_, ?_, hword, fun rest => ?_⟩
  · rintro rfl
    simpa [bytesOfWord, eq_comm] using hbytes
  · rintro rfl
    simpa [bytesOfWord, eq_comm] using hbytes
  · rw [← hword]
    rfl

/-- Settles O16. -/
theorem operandEncoderInverts : Obligations.OperandEncoderInverts :=
  ⟨fun k _ _ _ _ _ => ⟨encodeOperands_eq_none k, encodeOperands_decodes k⟩,
    fun _ _ _ hdec hdef _ _ _ _ _ => encodeOperands_eq_some_iff hdec hdef⟩

/-- Settles O18: the printed names stand for the instruction's own numbers, which R83's encoder turns into its word. -/
theorem assembleOfDisassemble : Obligations.AssembleOfDisassemble := fun _ hdef =>
  ⟨_, disassemble_of_defined hdef, rfl, rfl, fun hq => ⟨_, _, _, asmRegsOf_doubleword hq⟩,
    fun hq => ⟨_, _, _, asmRegsOf_quadword hq⟩, assemble_printed hdef⟩

/-- Settles O19: the number in `D:Vd` is the same for both lines. -/
theorem omittedDestinationIsFirstSource : Obligations.OmittedDestinationIsFirstSource := fun _ _ _ _ _ =>
  ⟨fun _ _ => rfl, fun _ _ => rfl⟩

/-- Settles O20, row by row over the four flags. -/
theorem conditionTable : Obligations.ConditionTable := by
  refine ⟨?_, ?_, fun it sys hit => ?_⟩
  · rintro ⟨n, z, c, v⟩
    revert n z c v
    decide
  · rintro b ⟨n, z, c, v⟩
    revert b n z c v
    decide
  · have hout : inITBlock it = false := by simp [inITBlock, hit]
    simp [itConditionPassed, itCondition, hout, Cond.holds]

/-- Settles O55: the condition is looked at first, then the qualifier, and neither reaches the word. -/
theorem assemblerRejections : Obligations.AssemblerRejections := by
  refine fun block l => ⟨fun c hl hc => ?_, fun c hl hc hb => ?_, fun k hadm => ?_⟩
  · exact assemble_of_condError (by rw [hl, condError_a32_rejected hc])
  · exact assemble_of_condError (by rw [hl, condError_t32_rejected hc hb])
  · have hcond : condError k block l.cond = none := condError_admitted hadm
    exact ⟨assemble_narrow hcond, fun hq => assemble_congr hcond rfl hq (by simp) rfl rfl⟩

end Sys2Proof.Proofs
end

section
/-! Slices of a concatenation: its lanes, its rotation and its arithmetic value, at every width (R97, R99, R104). -/

namespace Sys2Proof.Machine

/-- Byte lanes of a slice that starts `k` bytes into a concatenation of two vectors of `W` bytes (R97). -/
theorem byteOf_slice_append {w W k j : Nat} (hw : w = 8 * W) (hj : j < W) (vn vm : BitVec w) :
    byteOf ((vm ++ vn).extractLsb' (8 * k) w) j =
      if j + k < W then byteOf vn (j + k) else byteOf vm (j + k - W) := by
  have hlane : byteOf ((vm ++ vn).extractLsb' (8 * k) w) j = (vm ++ vn).extractLsb' (8 * (j + k)) 8 := by
    rw [byteOf, extractLsb'_extractLsb' _ (by omega), ← Nat.mul_add, Nat.add_comm k j]
  rw [hlane]
  split
  · rw [BitVec.extractLsb'_append_eq_of_add_le (by omega), byteOf]
  · rw [BitVec.extractLsb'_append_eq_of_le (by omega), byteOf, show 8 * (j + k) - w = 8 * (j + k - W) by omega]

/-- A slice of a vector beside itself is a rotation (R99 (d)). -/
theorem slice_append_self {w p : Nat} (hp : p < w) (v : BitVec w) : (v ++ v).extractLsb' p w = v.rotateRight p := by
  apply BitVec.eq_of_getLsbD_eq
  intro j hj
  simp only [BitVec.getLsbD_extractLsb', BitVec.getLsbD_append, BitVec.getLsbD_rotateRight_of_lt hp, hj, decide_true,
    Bool.true_and, cond_eq_ite, decide_eq_true_eq]
  by_cases h : p + j < w
  · rw [if_pos h, if_pos (by omega)]
  · rw [if_neg h, if_neg (by omega), show p + j - w = j - (w - p) by omega]

/-- Two pairs side by side are the four side by side. -/
theorem toNat_append_pairs {w : Nat} (a b c d : BitVec w) :
    ((a ++ b) ++ (c ++ d)).toNat = (a ++ b ++ c ++ d).toNat := by
  rw [BitVec.append_assoc', BitVec.toNat_cast]

/-- A concatenation as a number. -/
theorem toNat_append_eq_add {w : Nat} (vn vm : BitVec w) : (vm ++ vn).toNat = vm.toNat * 2 ^ w + vn.toNat := by
  rw [BitVec.toNat_append, ← Nat.shiftLeft_add_eq_or_of_lt vn.isLt, Nat.shiftLeft_eq]

/-- A slice of a concatenation as a number (R104). -/
theorem toNat_slice_append {w p : Nat} (vn vm : BitVec w) :
    ((vm ++ vn).extractLsb' p w).toNat = (vm.toNat * 2 ^ w + vn.toNat) / 2 ^ p % 2 ^ w := by
  rw [BitVec.extractLsb'_toNat, toNat_append_eq_add, Nat.shiftRight_eq_div_pow]

/-- The first byte on, nothing is shifted: the slice is the first source (R99 (a)). -/
theorem extractDoubleword_zero (vn vm : DWord) : extractDoubleword vn vm 0 = vn :=
  BitVec.extractLsb'_append_eq_right

theorem extractQuadword_zero (vn vm : QWord) : extractQuadword vn vm 0 = vn :=
  BitVec.extractLsb'_append_eq_right

end Sys2Proof.Machine
end

section
/-! The two views of the register file (R20 to R22), and what the two operations leave in it. -/

namespace Sys2Proof.Machine

/-- A cell outside the pair of a `Q` register is neither of its two cells (R22). -/
theorem ne_cells_of_half_ne {q : QNum} {r : DNum} (h : r.toNat / 2 ≠ q.toNat) : r ≠ lowCell q ∧ r ≠ highCell q := by
  constructor <;> rintro rfl <;> apply h
  · rw [toNat_lowCell]; omega
  · rw [toNat_highCell]; omega

/-- A write to one cell leaves every `Q` register that does not hold it. -/
theorem readQ_writeD_other {q : QNum} {r : DNum} (h : r.toNat / 2 ≠ q.toNat) (v : DWord) (s : State) :
    readQ q (writeD r v s) = readQ q s := by
  obtain ⟨hl, hh⟩ := ne_cells_of_half_ne h
  rw [readQ, readQ, readD_writeD_other hh.symm, readD_writeD_other hl.symm]

/-- A write to a `Q` register leaves every cell outside its pair. -/
theorem readD_writeQ_outside {q : QNum} {r : DNum} (h : r.toNat / 2 ≠ q.toNat) (v : QWord) (s : State) :
    readD r (writeQ q v s) = readD r s := by
  obtain ⟨hl, hh⟩ := ne_cells_of_half_ne h
  exact readD_writeQ_other hl hh v s

/-- The upper cell of the `Q` register that an even number names is the next one (R22). -/
theorem highCell_quadNum {r : DNum} (h : r.toNat % 2 = 0) : highCell (quadNum r) = r + 1 := by
  revert r
  decide

/-- A state whose `D` cells are those of another reads the same `Q` registers. -/
theorem readQ_congr {s t : State} (h : t.d = s.d) (q : QNum) : readQ q t = readQ q s := by
  rw [readQ, readQ, readD_congr h, readD_congr h]

/-- The `Q` register that an even number names is the cell of that number with the next one above it (R22, R66). -/
theorem readQ_quadNum {r : DNum} (h : r.toNat % 2 = 0) (s : State) :
    readQ (quadNum r) s = readD (r + 1) s ++ readD r s := by
  rw [readQ, lowCell_quadNum h, highCell_quadNum h]

@[simp] theorem readQ_quadwordOp (d n m : DNum) (imm4 : BitVec 4) (s : State) :
    readQ (quadNum d) (quadwordOp d n m imm4 s) =
      extractQuadword (readQ (quadNum n) s) (readQ (quadNum m) s) imm4 :=
  readQ_writeQ_same ..

end Sys2Proof.Machine
end

section
/-! What a VEXT that answers next leaves in the registers and in the rest of the state (R32, R90). -/

namespace Sys2Proof.Machine

/-- A VEXT that answers next with its condition passed is a defined one whose operation is done and `pc` advanced. -/
theorem exec_next_of_passed {i : Instr} {s t : State} (h : exec i s = .next t)
    (hp : conditionPassed i.iset s = true) :
    i.undefCause = none ∧ t = { operationOf i (useCondition i.iset s) with pc := s.pc + 4 } := by
  rw [exec_eq_stepVext] at h
  obtain ⟨-, hdef, -, -, rfl⟩ | ⟨hp', -⟩ := stepVext_next h
  · exact ⟨hdef, by simp⟩
  · simp [hp] at hp'

/-- A VEXT that answers next with its condition failed leaves every `D` cell (R91). -/
theorem exec_next_of_failed {i : Instr} {s t : State} (h : exec i s = .next t)
    (hp : conditionPassed i.iset s = false) (r : DNum) : readD r t = readD r s := by
  rw [exec_eq_stepVext] at h
  obtain ⟨hp', -⟩ | ⟨-, -, rfl | ⟨-, rfl⟩⟩ := stepVext_next h
  · simp [hp] at hp'
  · exact readD_congr (useCondition_d ..) r
  · exact readD_congr (useCondition_d ..) r

/-- The destination of a doubleword form that answered next with its condition passed (R94). -/
theorem readD_of_exec_next {i : Instr} {s t : State} (h : exec i s = .next t) (hp : conditionPassed i.iset s = true)
    (hq : i.quadword = false) : readD i.d t = extractDoubleword (readD i.n s) (readD i.m s) i.imm4 := by
  obtain ⟨-, rfl⟩ := exec_next_of_passed h hp
  refine (readD_congr (s := operationOf i (useCondition i.iset s)) rfl i.d).trans ?_
  rw [operationOf_doubleword hq, readD_doublewordOp, readD_useCondition, readD_useCondition]

/-- The destination of a quadword form that answered next with its condition passed (R95). -/
theorem readQ_of_exec_next {i : Instr} {s t : State} (h : exec i s = .next t) (hp : conditionPassed i.iset s = true)
    (hq : i.quadword = true) :
    readQ (quadNum i.d) t = extractQuadword (readQ (quadNum i.n) s) (readQ (quadNum i.m) s) i.imm4 := by
  obtain ⟨-, rfl⟩ := exec_next_of_passed h hp
  refine (readQ_congr (s := operationOf i (useCondition i.iset s)) rfl _).trans ?_
  rw [operationOf_quadword hq, readQ_quadwordOp, readQ_useCondition, readQ_useCondition]

/-- A doubleword form that answers next leaves every cell but its destination (R32). -/
theorem readD_other_of_doubleword {i : Instr} {s t : State} (h : exec i s = .next t) (hq : i.quadword = false)
    {r : DNum} (hr : r ≠ i.d) : readD r t = readD r s := by
  cases hp : conditionPassed i.iset s with
  | false => exact exec_next_of_failed h hp r
  | true =>
    obtain ⟨-, rfl⟩ := exec_next_of_passed h hp
    refine (readD_congr (s := operationOf i (useCondition i.iset s)) rfl r).trans ?_
    rw [operationOf_doubleword hq, doublewordOp, readD_writeD_other hr, readD_useCondition]

/-- A quadword form that answers next leaves every cell outside the pair of its destination (R32). -/
theorem readD_other_of_quadword {i : Instr} {s t : State} (h : exec i s = .next t) (hq : i.quadword = true)
    {r : DNum} (hr : r.toNat / 2 ≠ i.d.toNat / 2) : readD r t = readD r s := by
  cases hp : conditionPassed i.iset s with
  | false => exact exec_next_of_failed h hp r
  | true =>
    obtain ⟨-, rfl⟩ := exec_next_of_passed h hp
    refine (readD_congr (s := operationOf i (useCondition i.iset s)) rfl r).trans ?_
    rw [operationOf_quadword hq, quadwordOp, readD_writeQ_outside (by rwa [toNat_quadNum]), readD_useCondition]

/-- Everything but the registers after a VEXT that answers next: the part of the frame that both forms share (R32). -/
theorem exec_next_frame {i : Instr} {s t : State} (h : exec i s = .next t) :
    s.SameBut t ∧ (∀ a, Memory.read t.mem a = Memory.read s.mem a) ∧ t.pc = s.pc + 4 ∧
      (i.iset = .a32 → t.condInputs = s.condInputs ∧ t.freeChoices = s.freeChoices) ∧
      (i.iset = .t32 → t.condInputs = s.condInputs.tail) := by
  obtain ⟨hsame, -, hpc⟩ := exec_next_keeps h
  obtain ⟨hinputs, hcount⟩ := exec_next_inputs h
  refine ⟨hsame, fun a => by rw [hsame.mem], hpc, fun hk => ?_, fun hk => ?_⟩ <;> rw [hk] at hinputs hcount
  · refine ⟨hinputs, hcount.resolve_right ?_⟩
    rintro ⟨-, -, hfailed⟩
    simp [conditionPassed] at hfailed
  · exact hinputs

end Sys2Proof.Machine
end

section
/-! The obligations about a VEXT that completes. -/

namespace Sys2Proof.Proofs

open Sys2Proof.Machine

/-- Settles O21: `exec_completes`, whose state is the one listed, field by field. -/
theorem a32VextCompletes : Obligations.A32VextCompletes := fun d n m imm4 _ hen hroom =>
  ⟨fun himm => exec_completes (i := .vextA1D d n m imm4) ((undefCause_none_doubleword rfl).mpr himm) rfl hen hroom,
    fun hd hn hm =>
      exec_completes (i := .vextA1Q d n m imm4) ((undefCause_none_quadword rfl).mpr ⟨hd, hn, hm⟩) rfl hen hroom⟩

/-- Settles O22: the same with the input of the step used up. -/
theorem t32VextCompletes : Obligations.T32VextCompletes := fun d n m imm4 _ hp hen hroom =>
  ⟨fun himm => exec_completes (i := .vextT1D d n m imm4) ((undefCause_none_doubleword rfl).mpr himm) hp hen hroom,
    fun hd hn hm =>
      exec_completes (i := .vextT1Q d n m imm4) ((undefCause_none_quadword rfl).mpr ⟨hd, hn, hm⟩) hp hen hroom⟩

/-- Settles O24: with even numbers the two `Q` views are the four cells side by side, and the two written cells are the
halves of the slice. -/
theorem quadwordResult : Obligations.QuadwordResult := by
  intro i s hq hd hn hm hp hen hroom c
  obtain ⟨t, hexec⟩ : ∃ t, exec i s = .next t :=
    ⟨_, exec_completes ((undefCause_none_quadword hq).mpr ⟨hd, hn, hm⟩) hp hen hroom⟩
  refine ⟨by rw [position]; omega, t, hexec, readQ_of_exec_next hexec hp hq, ?_⟩
  have hviews : readQ (quadNum i.m) s ++ readQ (quadNum i.n) s = c := by
    rw [readQ_quadNum hm, readQ_quadNum hn]
    exact BitVec.eq_of_toNat_eq (toNat_append_pairs ..)
  have hpair : readD (i.d + 1) t ++ readD i.d t = c.extractLsb' (position i.imm4) 128 := by
    rw [← readQ_quadNum hd, ← hviews]
    exact readQ_of_exec_next hexec hp hq
  constructor
  · calc readD i.d t = (readD (i.d + 1) t ++ readD i.d t).extractLsb' 0 64 := BitVec.extractLsb'_append_eq_right.symm
      _ = c.extractLsb' (position i.imm4) 64 := by rw [hpair, extractLsb'_extractLsb' _ (by omega), Nat.add_zero]
  · calc readD (i.d + 1) t = (readD (i.d + 1) t ++ readD i.d t).extractLsb' 64 64 :=
          BitVec.extractLsb'_append_eq_left.symm
      _ = c.extractLsb' (position i.imm4 + 64) 64 := by rw [hpair, extractLsb'_extractLsb' _ (by omega)]

/-- Settles O25. -/
theorem doublewordLanes : Obligations.DoublewordLanes := by
  intro i s hq himm hp hen hroom
  obtain ⟨t, hexec, hread⟩ := exec_doubleword_readD hq himm hp hen hroom
  refine ⟨t, hexec, fun j hj => ?_⟩
  rw [hread]
  exact byteOf_slice_append rfl hj ..

/-- Settles O26. -/
theorem quadwordLanes : Obligations.QuadwordLanes := by
  intro i s hq hd hn hm hp hen hroom
  have hexec := exec_completes ((undefCause_none_quadword hq).mpr ⟨hd, hn, hm⟩) hp hen hroom
  refine ⟨_, hexec, fun j hj => ?_⟩
  rw [readQ_of_exec_next hexec hp hq]
  exact byteOf_slice_append rfl hj ..

/-- Settles O27. -/
theorem copyAndRotate : Obligations.CopyAndRotate := by
  intro i s hdef hp hen hroom
  have hexec := exec_completes hdef hp hen hroom
  refine ⟨_, hexec, fun hq => ?_, fun hq => ?_⟩
  · rw [readD_of_exec_next hexec hp hq]
    have himm : i.imm4.toNat ≤ 7 := (undefCause_none_doubleword hq).mp hdef
    refine ⟨fun h0 => by rw [h0, extractDoubleword_zero], fun hnm => ?_⟩
    rw [hnm]
    exact slice_append_self (show 8 * i.imm4.toNat < 64 by omega) _
  · rw [readQ_of_exec_next hexec hp hq]
    have himm := i.imm4.isLt
    refine ⟨fun h0 => by rw [h0, extractQuadword_zero], fun hnm => ?_⟩
    rw [hnm]
    exact slice_append_self (show 8 * i.imm4.toNat < 128 by omega) _

/-- Settles O28. -/
theorem resultAsArithmetic : Obligations.ResultAsArithmetic := by
  intro i s hdef hp hen hroom
  have hexec := exec_completes hdef hp hen hroom
  refine ⟨_, hexec, fun hq => ?_, fun hq => ?_⟩
  · rw [readD_of_exec_next hexec hp hq]
    exact toNat_slice_append ..
  · rw [readQ_of_exec_next hexec hp hq]
    exact toNat_slice_append ..

/-- Settles O29. -/
theorem viewsShareStorage : Obligations.ViewsShareStorage := by
  intro q k v x s
  have hcells : highCell q ≠ lowCell q := highCell_ne_lowCell q q
  refine ⟨BitVec.extractLsb'_append_eq_right, BitVec.extractLsb'_append_eq_left, toNat_lowCell q, toNat_highCell q,
    readQ_writeQ_same q v s, rfl, fun hk => ⟨readQ_writeD_other hk x s, readD_writeQ_outside hk v s⟩, ?_, ?_⟩
  · rw [readQ, readD_writeD_same, readD_writeD_other hcells]
  · rw [readQ, readD_writeD_same, readD_writeD_other hcells.symm]

/-- Settles O30. -/
theorem doublewordFrame : Obligations.DoublewordFrame := fun _ _ _ hq hexec =>
  ⟨fun _ hr => readD_other_of_doubleword hexec hq hr, exec_next_of_failed hexec, exec_next_frame hexec⟩

/-- Settles O31. -/
theorem quadwordFrame : Obligations.QuadwordFrame := fun _ _ _ hq hexec =>
  ⟨fun _ hr => readD_other_of_quadword hexec hq hr, exec_next_of_failed hexec, exec_next_frame hexec⟩

/-- Settles O51: the destination is a function of the two sources' values. -/
theorem resultFromSourcesOnly : Obligations.ResultFromSourcesOnly := by
  intro i s t s' t' _ hp hp' hexec hexec'
  refine ⟨fun hq hn hm => ?_, fun hq hn hm => ?_⟩
  · rw [readD_of_exec_next hexec hp hq, readD_of_exec_next hexec' hp' hq, hn, hm]
  · rw [readQ_of_exec_next hexec hp hq, readQ_of_exec_next hexec' hp' hq, hn, hm]

end Sys2Proof.Proofs
end

section
/-! What a VEXT answers, by its condition, its UNDEFINED test and its enable check (R90 to R93). -/

namespace Sys2Proof.Machine

theorem exec_of_passed {i : Instr} {s : State} (hp : conditionPassed i.iset s = true) :
    exec i s = conditionHeld i (operationOf i) (useCondition i.iset s) := by
  rw [exec_eq_stepVext, stepVext, if_pos hp]

theorem exec_of_failed {i : Instr} {s : State} (hp : conditionPassed i.iset s = false) :
    exec i s = conditionFailed i (useCondition i.iset s) := by
  rw [exec_eq_stepVext, stepVext, if_neg (by simp [hp])]

/-- With room above it, `pc` advances (R28). -/
theorem complete_of_room {s : State} (h : s.NoWrap) : complete s = .next { s with pc := s.pc + 4 } :=
  complete_next_iff.mpr ⟨h, rfl⟩

/-! ## The condition passed -/

/-- The UNDEFINED test comes first (R92 (a), R123). -/
theorem exec_undefined {i : Instr} {c : UndefCause} {s : State} (hp : conditionPassed i.iset s = true)
    (hc : i.undefCause = some c) : exec i s = .fault (.undefinedInstruction (encode i) s.pc c) := by
  simp only [exec_of_passed hp, conditionHeld, hc, raiseUndefined, useCondition_pc]

/-- The enable check comes next (R93): its answer `undefined`. -/
theorem exec_advSimdUndefined {i : Instr} {s : State} (hp : conditionPassed i.iset s = true)
    (hdef : i.undefCause = none) (ha : advSimdAnswer s = .undefined) :
    exec i s = .fault (.undefinedInstruction (encode i) s.pc .advSimdDisabled) := by
  simp only [exec_of_passed hp, conditionHeld, hdef, advSimdAnswer_useCondition, ha, raiseUndefined, useCondition_pc]

/-- The enable check's answer `hypTrap` (R93, R121). -/
theorem exec_advSimdHypTrap {i : Instr} {s : State} (hp : conditionPassed i.iset s = true)
    (hdef : i.undefCause = none) (ha : advSimdAnswer s = .hypTrap) :
    exec i s = .fault (.hypTrap (encode i) s.pc) := by
  simp only [exec_of_passed hp, conditionHeld, hdef, advSimdAnswer_useCondition, ha, raiseHypTrap, useCondition_pc]

/-! ## The condition failed -/

theorem conditionFailed_nop {i : Instr} {s : State} (h : i.undefCause = none ∨ s.condFailUndef = .nop) :
    conditionFailed i s = complete s := by
  rw [conditionFailed]
  cases hc : i.undefCause with
  | none => rfl
  | some c => rw [h.resolve_left (by simp [hc])]

theorem conditionFailed_undefined {i : Instr} {c : UndefCause} {s : State} (hc : i.undefCause = some c)
    (hcf : s.condFailUndef = .undefined) : conditionFailed i s = raiseUndefined i c s := by
  simp only [conditionFailed, hc, hcf]

theorem conditionFailed_either {i : Instr} {c : UndefCause} {s : State} (hc : i.undefCause = some c)
    (hcf : s.condFailUndef = .either) :
    conditionFailed i s =
      if Config.eitherFaults s.freeChoices then raiseUndefined i c s
      else complete { s with freeChoices := s.freeChoices + 1 } := by
  simp only [conditionFailed, hc, hcf]

/-- A failed condition advances `pc`, and uses its input up, where the word is defined or `COND_FAIL_UNDEF` is nop
(R91, R92). -/
theorem exec_failed_nop {i : Instr} {s : State} (hp : conditionPassed i.iset s = false) (hroom : s.NoWrap)
    (h : i.undefCause = none ∨ s.condFailUndef = .nop) :
    exec i s = .next { useCondition i.iset s with pc := s.pc + 4 } := by
  rw [exec_of_failed hp, conditionFailed_nop (by rwa [useCondition_condFailUndef]),
    complete_of_room (by rwa [State.NoWrap, useCondition_pc]), useCondition_pc]

/-- A failed condition raises where the word is UNDEFINED and `COND_FAIL_UNDEF` is undefined (R92). -/
theorem exec_failed_undefined {i : Instr} {c : UndefCause} {s : State} (hp : conditionPassed i.iset s = false)
    (hc : i.undefCause = some c) (hcf : s.condFailUndef = .undefined) :
    exec i s = .fault (.undefinedInstruction (encode i) s.pc c) := by
  rw [exec_of_failed hp, conditionFailed_undefined hc (by rwa [useCondition_condFailUndef]), raiseUndefined,
    useCondition_pc]

/-- Under `either` the free choice takes one of the two (R92, log entry 8). -/
theorem exec_failed_either {i : Instr} {c : UndefCause} {s : State} (hp : conditionPassed i.iset s = false)
    (hc : i.undefCause = some c) (hcf : s.condFailUndef = .either) (hroom : s.NoWrap) :
    exec i s = .fault (.undefinedInstruction (encode i) s.pc c) ∨
      exec i s = .next { useCondition i.iset s with pc := s.pc + 4, freeChoices := s.freeChoices + 1 } := by
  rw [exec_of_failed hp, conditionFailed_either hc (by rwa [useCondition_condFailUndef]), useCondition_freeChoices]
  split
  · exact .inl (by rw [raiseUndefined, useCondition_pc])
  · exact .inr (by rw [complete_of_room (by simpa using hroom), useCondition_pc])

/-- A VEXT is refused only for want of room above `pc` (R28). -/
theorem exec_refused {i : Instr} {s : State} {r : Refusal} (h : exec i s = .refused r) :
    pcHasRoom s.pc = false ∧ r = .pcWouldWrap s.pc := by
  rw [exec_eq_stepVext] at h
  exact stepVext_refused (by simp) h

end Sys2Proof.Machine
end

section
/-! Fetch, and what a step does before it executes (R44 to R46, R146). -/

namespace Sys2Proof.Machine

/-- Alignment as a remainder (R45). -/
theorem pcAligned_a32_iff (pc : Word) : pcAligned .a32 pc = true ↔ pc.toNat % 4 = 0 := by
  simp [pcAligned, ← BitVec.toNat_inj]

theorem pcAligned_t32_iff (pc : Word) : pcAligned .t32 pc = true ↔ pc.toNat % 2 = 0 := by
  simp [pcAligned, ← BitVec.toNat_inj]

theorem fetch_misaligned {s : State} (h : ¬ s.PcAligned) : fetch s = .error (misalignedFetch s.iset s.pc) :=
  if_neg h

/-- The four reads of an aligned fetch, each at its distance from `pc` (R44). -/
theorem fetch_aligned {s : State} (h : s.PcAligned) :
    fetch s = (do
      let b0 ← fetchByte s.mem (s.pc.toNat + 0)
      let b1 ← fetchByte s.mem (s.pc.toNat + 1)
      let b2 ← fetchByte s.mem (s.pc.toNat + 2)
      let b3 ← fetchByte s.mem (s.pc.toNat + 3)
      return wordOfBytes s.iset b0 b1 b2 b3) :=
  if_pos h

theorem fetchByte_some {m : Memory} {x : Nat} {b : Byte} (h : Memory.read m x = some b) : fetchByte m x = .ok b := by
  rw [fetchByte, h]

theorem fetchByte_none {m : Memory} {x : Nat} (h : Memory.read m x = none) :
    fetchByte m x = .error (.noProgramByte x) := by
  rw [fetchByte, h]

/-- The four bytes at an aligned `pc` make the word (R44). -/
theorem fetch_of_bytes {s : State} {b0 b1 b2 b3 : Byte} (hal : s.PcAligned)
    (h0 : Memory.read s.mem s.pc.toNat = some b0) (h1 : Memory.read s.mem (s.pc.toNat + 1) = some b1)
    (h2 : Memory.read s.mem (s.pc.toNat + 2) = some b2) (h3 : Memory.read s.mem (s.pc.toNat + 3) = some b3) :
    fetch s = .ok (wordOfBytes s.iset b0 b1 b2 b3) := by
  rw [fetch, if_pos hal, fetchByte_some h0, fetchByte_some h1, fetchByte_some h2, fetchByte_some h3]
  rfl

/-- A word that the program text holds at an aligned `pc` is fetched (R44, R142). -/
theorem fetch_of_textAt {s : State} {w : Word} (hal : s.PcAligned) (h : s.TextAt w) : fetch s = .ok w := by
  obtain ⟨b0, b1, b2, b3, hbytes, hword⟩ := exists_bytesOfWord s.iset w
  obtain ⟨h0, h1, h2, h3⟩ := h
  rw [hbytes] at h0 h1 h2 h3
  rw [fetch_of_bytes hal h0 h1 h2 h3, hword]

/-- A word placed in the program text is held there, when it lies below 2^32. -/
theorem holdsWord_placeAll {k : ISet} {x : Nat} (w : Word) (m : Memory) (hx : x + 4 ≤ Config.addressSpace) :
    Memory.HoldsWord (Memory.placeAll x (bytesOfWord k w) m) k x w := by
  obtain ⟨b0, b1, b2, b3, hbytes, -⟩ := exists_bytesOfWord k w
  simp only [Memory.HoldsWord, hbytes]
  have hread : ∀ j < 4, Memory.read (Memory.placeAll x [b0, b1, b2, b3] m) (x + j) = [b0, b1, b2, b3][j]? :=
    fun j hj => Memory.read_placeAll_inside hj hx m
  exact ⟨hread 0 (by decide), hread 1 (by decide), hread 2 (by decide), hread 3 (by decide)⟩

/-- What stops a step before it executes: the end of the run, want of room, the fetch, or a word that is no VEXT
(R146). -/
theorem nextInstr_error_iff {s : State} {r : Refusal} :
    nextInstr s = .error r ↔
      (s.pc = s.endAddr ∧ r = .runEnded) ∨
      (s.pc ≠ s.endAddr ∧ ¬ s.NoWrap ∧ r = .pcWouldWrap s.pc) ∨
      (s.pc ≠ s.endAddr ∧ s.NoWrap ∧ fetch s = .error r) ∨
      (s.pc ≠ s.endAddr ∧ s.NoWrap ∧ ∃ w, fetch s = .ok w ∧ (∀ i, decode s.iset w ≠ .ok i) ∧ r = .notVext w) := by
  unfold nextInstr
  by_cases hend : s.pc = s.endAddr
  · rw [if_pos hend]
    simp only [hend, ne_eq, not_true_eq_false, false_and, or_false, true_and, Except.error.injEq]
    exact eq_comm
  rw [if_neg hend]
  by_cases hroom : pcHasRoom s.pc = true
  · rw [if_pos hroom]
    cases hf : fetch s with
    | error e => simp [hend, State.NoWrap, hroom]
    | ok w => cases hd : decode s.iset w <;> simp [hend, hroom, hd, eq_comm]
  · simp [hend, hroom, eq_comm]

/-- A step is refused only before it executes: the room it needs has been checked (R146). -/
theorem step_refused_iff {s : State} {r : Refusal} : step s = .refused r ↔ nextInstr s = .error r := by
  unfold step
  cases h : nextInstr s with
  | error e => simp
  | ok i =>
    obtain ⟨-, hroom, -⟩ := nextInstr_ok_iff.mp h
    refine ⟨fun hexec => ?_, fun he => nomatch he⟩
    obtain ⟨hfull, -⟩ := exec_refused hexec
    exact absurd hroom (by simp [hfull])

/-- A step on an instruction is the execution of that instruction. -/
theorem step_of_nextInstr {s : State} {i : Instr} (h : nextInstr s = .ok i) : step s = exec i s := by
  rw [step, h]

/-- Where the program text holds an instruction's word at an aligned `pc` away from `END` and with room above it, that
instruction is the next (R44, R146). -/
theorem nextInstr_of_textAt {s : State} {i : Instr} (hk : i.iset = s.iset) (hend : s.pc ≠ s.endAddr)
    (hroom : s.NoWrap) (hal : s.PcAligned) (htext : s.TextAt (encode i)) : nextInstr s = .ok i :=
  nextInstr_ok_iff.mpr ⟨hend, hroom, _, fetch_of_textAt hal htext, decode_ok_iff_encode.mpr ⟨hk, rfl⟩⟩

/-- The instruction set that a step executes is the one selected. -/
theorem nextInstr_iset {s : State} {i : Instr} (h : nextInstr s = .ok i) : i.iset = s.iset := by
  obtain ⟨-, -, w, -, hdec⟩ := nextInstr_ok_iff.mp h
  exact (encode_of_decode hdec).1

/-! ## The launcher's placing (log entry 9) -/

theorem isetOfWord_encode (i : Instr) : isetOfWord (encode i) = some i.iset := by
  rw [isetOfWord, encode_and_classMask]
  cases i.iset <;> decide

/-- Away from the top of the address space `pc + 4` is another address. -/
theorem ne_add_four {pc : Word} (h : pcHasRoom pc = true) : pc ≠ pc + 4 := fun he => by
  have := congrArg BitVec.toNat he
  rw [toNat_pc_add_four h] at this
  omega

theorem withFetchWord_encode (s : State) (i : Instr) :
    s.withFetchWord 32 (encode i).toNat =
      { s with
        iset := i.iset
        mem := Memory.placeAll s.pc.toNat (bytesOfWord i.iset (encode i)) s.mem
        endAddr := if s.endAddr = s.pc then s.pc + 4 else s.endAddr } := by
  rw [State.withFetchWord, Nat.mod_eq_of_lt (encode i).isLt, BitVec.ofNat_toNat, BitVec.setWidth_eq, placeInstr,
    isetOfWord_encode]
  rfl

/-- The instruction placed is the next one (log entry 9). -/
theorem nextInstr_withFetchWord {s : State} {i : Instr} (hal : pcAligned i.iset s.pc = true) (hroom : s.NoWrap) :
    nextInstr (s.withFetchWord 32 (encode i).toNat) = .ok i := by
  have hfits : s.pc.toNat + 4 ≤ Config.addressSpace := (of_decide_eq_true hroom).le
  have hend : s.pc ≠ if s.endAddr = s.pc then s.pc + 4 else s.endAddr := by
    split
    · exact ne_add_four hroom
    · exact Ne.symm ‹_›
  rw [withFetchWord_encode]
  exact nextInstr_of_textAt rfl hend hroom hal (holdsWord_placeAll (encode i) s.mem hfits)

end Sys2Proof.Machine
end

section
/-! What a step that answers next keeps (R32, R45, R51). -/

namespace Sys2Proof.Machine

/-- A step that answers next leaves what the executed instruction leaves, and has moved `pc` by four. -/
theorem step_next_keeps {s t : State} (h : step s = .next t) :
    s.SameBut t ∧ pcHasRoom s.pc = true ∧ t.pc = s.pc + 4 := by
  obtain ⟨i, -, hexec⟩ := step_next_iff.mp h
  exact exec_next_keeps hexec

theorem step_next_toNat_pc {s t : State} (h : step s = .next t) : t.pc.toNat = s.pc.toNat + 4 := by
  obtain ⟨-, hroom, hpc⟩ := step_next_keeps h
  rw [hpc, toNat_pc_add_four hroom]

/-- Four further on, in the same instruction set, `pc` is aligned as it was (R45). -/
theorem State.PcAligned.add_four {s t : State} (h : s.PcAligned) (hs : s.SameBut t) (hpc : t.pc = s.pc + 4) :
    t.PcAligned := by
  rw [State.PcAligned, hs.iset, hpc, pcAligned_add_four]
  exact h

/-- Every step keeps the program text canonical and `pc` aligned. -/
theorem State.Inv.step {s t : State} (hinv : s.Inv) (h : step s = .next t) : t.Inv := by
  obtain ⟨hsame, -, hpc⟩ := step_next_keeps h
  exact ⟨by rw [hsame.mem]; exact hinv.wf, State.PcAligned.add_four hinv.aligned hsame hpc⟩

theorem State.SameBut.advSimdAnswer_eq {s t : State} (h : s.SameBut t) : advSimdAnswer t = advSimdAnswer s :=
  advSimdAnswer_congr h.sys h.advSimd

/-- The inputs to come after an instruction are among those before it, so none of them becomes FALSE. -/
theorem State.NotInITBlock.exec {i : Instr} {s t : State} (h : s.NotInITBlock) (hexec : exec i s = .next t) :
    t.NotInITBlock := by
  obtain ⟨hinputs, -⟩ := exec_next_inputs hexec
  intro b hb
  rw [hinputs] at hb
  cases hk : i.iset with
  | a32 => exact h b (by rwa [hk] at hb)
  | t32 => exact h b (List.mem_of_mem_tail (by rwa [hk] at hb))

/-- With no FALSE input to come, the condition passes (R91, R142). -/
theorem conditionPassed_of_notInITBlock {k : ISet} {s : State} (h : k = .t32 → s.NotInITBlock) :
    conditionPassed k s = true := by
  cases k with
  | a32 => rfl
  | t32 =>
    cases hl : s.condInputs with
    | nil => simp [conditionPassed, hl]
    | cons b bs =>
      have hb : b = true := h rfl b (by simp [hl])
      simp [conditionPassed, hl, hb]

end Sys2Proof.Machine
end

section
/-! The obligations about faults, about one step and about the launch state. -/

namespace Sys2Proof.Proofs

open Sys2Proof.Machine

/-- Settles O32. -/
theorem failedConditionIsNop : Obligations.FailedConditionIsNop := by
  intro i s hk hdef hp hroom
  have hexec := exec_failed_nop (i := i) (by rwa [hk]) hroom (.inl hdef)
  rwa [hk] at hexec

/-- Settles O33: one case per value of `COND_FAIL_UNDEF`. -/
theorem failedConditionOfUndefinedWord : Obligations.FailedConditionOfUndefinedWord := by
  intro i c s hk hc hp hroom nop raised
  have hfailed : conditionPassed i.iset s = false := by rwa [hk]
  refine ⟨fun hnop => ?_, exec_failed_undefined hfailed hc, fun heither => ?_⟩
  · rw [exec_failed_nop hfailed hroom (.inr hnop), hk]
    rfl
  · have hexec := exec_failed_either hfailed hc heither hroom
    rwa [hk] at hexec

/-- Settles O34. -/
theorem undefinedTestBeforeEnableCheck : Obligations.UndefinedTestBeforeEnableCheck := fun _ _ _ => exec_undefined

/-- Settles O35. -/
theorem enableCheckFaults : Obligations.EnableCheckFaults := fun _ _ hp hdef =>
  ⟨exec_advSimdUndefined hp hdef, exec_advSimdHypTrap hp hdef⟩

/-- Settles O36: `stepVext_fault` one way; the other way one lemma per situation. -/
theorem faultsAreExactlyThese : Obligations.FaultsAreExactlyThese := by
  intro i s f
  refine ⟨fun h => ?_, ?_, fun hk hdef hen h => ?_⟩
  · rw [exec_eq_stepVext] at h
    obtain hundef | ⟨hp, hdef, ⟨ha, hf⟩ | ⟨ha, hf⟩⟩ := stepVext_fault h
    · exact .inl hundef
    · exact .inr (.inl ⟨hp, hdef, ha, hf⟩)
    · exact .inr (.inr ⟨hp, hdef, ha, hf⟩)
  · rintro (⟨c, hc, rfl, hwhen⟩ | ⟨hp, hdef, ha, rfl⟩ | ⟨hp, hdef, ha, rfl⟩)
    · cases hp : conditionPassed i.iset s with
      | true => exact exec_undefined hp hc
      | false => exact exec_failed_undefined hp hc (hwhen.resolve_left (by simp [hp]))
    · exact exec_advSimdUndefined hp hdef ha
    · exact exec_advSimdHypTrap hp hdef ha
  · rw [exec_eq_stepVext] at h
    obtain ⟨c, hc, -⟩ | ⟨-, -, ⟨ha, -⟩ | ⟨ha, -⟩⟩ := stepVext_fault h
    · exact nomatch hdef.symm.trans hc
    · exact nomatch hen.symm.trans ha
    · exact nomatch hen.symm.trans ha

/-- Settles O37. -/
theorem stepRunsDecodedInstruction : Obligations.StepRunsDecodedInstruction := fun _ w _ hend hroom hfetch hdec =>
  step_of_nextInstr (nextInstr_ok_iff.mpr ⟨hend, hroom, w, hfetch, hdec⟩)

/-- Settles O38: the bytes of the word that four bytes spell are those four, in the order of the instruction set. -/
theorem fetchReadsPlacedText : Obligations.FetchReadsPlacedText := by
  refine ⟨fun s w => fetch_of_textAt, fun s b0 b1 b2 b3 hal h0 h1 h2 h3 => ?_⟩
  refine ⟨_, fetch_of_bytes hal h0 h1 h2 h3, fun hk => ?_, fun hk => ?_⟩
  · have hbytes := bytesOfWord_wordOfBytes s.iset b0 b1 b2 b3
    simpa [bytesOfWord, hk] using hbytes
  · have hbytes := bytesOfWord_wordOfBytes s.iset b0 b1 b2 b3
    simpa [bytesOfWord, hk] using hbytes

/-- Settles O39: the first of the four reads that has no byte is the one refused. -/
theorem fetchRefusals : Obligations.FetchRefusals := by
  refine fun s => ⟨fun hk hpc => ?_, fun hk hpc => ?_, fun hal k hk hsome hnone => ?_⟩
  · rw [fetch_misaligned (by rw [State.PcAligned, hk, pcAligned_a32_iff]; exact hpc), hk, misalignedFetch]
  · rw [fetch_misaligned (by rw [State.PcAligned, hk, pcAligned_t32_iff]; exact hpc), hk, misalignedFetch]
  · have hread : ∀ j < k, ∃ b, fetchByte s.mem (s.pc.toNat + j) = .ok b := fun j hj => by
      obtain ⟨b, hb⟩ := Option.ne_none_iff_exists'.mp (hsome j hj)
      exact ⟨b, fetchByte_some hb⟩
    choose! byte hbyte using hread
    have hstop := fetchByte_none hnone
    rw [fetch_aligned hal]
    interval_cases k <;> simp (disch := decide) only [hbyte, hstop] <;> rfl

/-- Settles O40. -/
theorem stepRefusals : Obligations.StepRefusals := fun _ _ => step_refused_iff.trans nextInstr_error_iff

/-- Settles O41: a fault records the word of its instruction, which is the word fetched. -/
theorem faultRecordsFetchedWord : Obligations.FaultRecordsFetchedWord := by
  intro s f h
  obtain ⟨i, hnext, hexec⟩ := step_fault_iff.mp h
  obtain ⟨-, -, w, hfetch, hdec⟩ := nextInstr_ok_iff.mp hnext
  obtain ⟨-, rfl⟩ := encode_of_decode hdec
  rw [exec_eq_stepVext] at hexec
  refine ⟨_, hfetch, ?_⟩
  obtain ⟨c, -, rfl, -⟩ | ⟨-, -, ⟨-, rfl⟩ | ⟨-, rfl⟩⟩ := stepVext_fault hexec
  · exact .inr ⟨c, rfl⟩
  · exact .inr ⟨_, rfl⟩
  · exact .inl rfl

/-- Settles O42: the placed instruction is the next one, it completes, and what it keeps are the premises. -/
theorem premisesGiveProgress : Obligations.PremisesGiveProgress := by
  intro s i hk hwf hend hroom hal htext hen hcond
  have hexec := exec_completes ((undefCause_none_iff_wellFormed i).mpr hwf)
    (conditionPassed_of_notInITBlock fun _ => hcond) hen hroom
  obtain ⟨hsame, -, hpc⟩ := exec_next_keeps hexec
  exact ⟨_, (step_of_nextInstr (nextInstr_of_textAt hk hend hroom hal htext)).trans hexec, hexec,
    hsame.advSimdAnswer_eq.trans hen, hcond.exec hexec, State.PcAligned.add_four hal hsame hpc⟩

/-- Settles O43. -/
theorem placedInstructionRuns : Obligations.PlacedInstructionRuns := fun _ _ hal hroom =>
  step_of_nextInstr (nextInstr_withFetchWord hal hroom)

/-- Settles O44: every cell of the launch state is a cell of the constant vector. -/
theorem resetLaunchState : Obligations.ResetLaunchState := by
  refine ⟨fun r => ?_, rfl, rfl, fun _ => rfl, rfl, fun _ hb => (nomatch hb), rfl, by decide⟩
  simp [readD, State.reset]

/-- Settles O45. -/
theorem resetMeetsInvariant : Obligations.ResetMeetsInvariant := ⟨reset_mem_wf, rfl⟩

/-- Settles O46. -/
theorem stepKeepsInvariant : Obligations.StepKeepsInvariant := fun _ _ hinv => hinv.step

/-- Settles O47. -/
theorem placingKeepsInvariant : Obligations.PlacingKeepsInvariant := fun s _ _ hinv hal =>
  ⟨Memory.wf_placeAll _ s.pc.toNat hinv.wf, hal⟩

/-- Settles O48: a step executes an instruction of the selected instruction set, whose frame and inputs are known. -/
theorem stepLeavesSystemState : Obligations.StepLeavesSystemState := by
  intro s t h
  obtain ⟨i, hnext, hexec⟩ := step_next_iff.mp h
  obtain ⟨hsame, -, -, ha32, ht32⟩ := exec_next_frame hexec
  obtain ⟨-, hcount⟩ := exec_next_inputs hexec
  rw [nextInstr_iset hnext] at ha32 ht32 hcount
  exact ⟨hsame, hsame.advSimdAnswer_eq, fun hcond => hcond.exec hexec, ha32, ht32, hcount⟩

end Sys2Proof.Proofs
end

section
/-! What a step does not look at: changes of the state that pass through a step untouched (R108, R109). -/

namespace Sys2Proof.Machine

/-- A change of the state that leaves every field the shared step of one VEXT reads, the enable check's apart, and that
commutes with the updates that step makes. -/
structure PassesThrough (f : State → State) : Prop where
  pc : ∀ s, (f s).pc = s.pc
  condFailUndef : ∀ s, (f s).condFailUndef = s.condFailUndef
  freeChoices : ∀ s, (f s).freeChoices = s.freeChoices
  conditionPassed : ∀ k s, Machine.conditionPassed k (f s) = Machine.conditionPassed k s
  advance : ∀ s, f { s with pc := s.pc + 4 } = { f s with pc := (f s).pc + 4 }
  draw : ∀ s, f { s with freeChoices := s.freeChoices + 1 } = { f s with freeChoices := (f s).freeChoices + 1 }
  useCondition : ∀ k s, f (Machine.useCondition k s) = Machine.useCondition k (f s)

theorem passesThrough_withD (v : Vector DWord 32) : PassesThrough (State.withD v) where
  pc _ := rfl
  condFailUndef _ := rfl
  freeChoices _ := rfl
  conditionPassed _ _ := rfl
  advance _ := rfl
  draw _ := rfl
  useCondition k _ := by cases k <;> rfl

theorem passesThrough_withSys (sys : Sys) (check : AdvSimdCheck) : PassesThrough (State.withSys sys check) where
  pc _ := rfl
  condFailUndef _ := rfl
  freeChoices _ := rfl
  conditionPassed _ _ := rfl
  advance _ := rfl
  draw _ := rfl
  useCondition k _ := by cases k <;> rfl

section Passage
variable {f : State → State} (hf : PassesThrough f)
include hf

theorem PassesThrough.complete (s : State) : Machine.complete (f s) = mapNext f (Machine.complete s) := by
  cases hroom : pcHasRoom s.pc with
  | true =>
    rw [complete_of_room hroom, mapNext]
    exact complete_next_iff.mpr ⟨by rwa [hf.pc], hf.advance s⟩
  | false =>
    rw [complete_refused_iff.mpr ⟨hroom, rfl⟩, mapNext]
    exact complete_refused_iff.mpr ⟨by rwa [hf.pc], by rw [hf.pc]⟩

theorem PassesThrough.raiseUndefined (i : Instr) (c : UndefCause) (s : State) :
    Machine.raiseUndefined i c (f s) = mapNext f (Machine.raiseUndefined i c s) := by
  rw [Machine.raiseUndefined, Machine.raiseUndefined, hf.pc, mapNext]

theorem PassesThrough.raiseHypTrap (i : Instr) (s : State) :
    Machine.raiseHypTrap i (f s) = mapNext f (Machine.raiseHypTrap i s) := by
  rw [Machine.raiseHypTrap, Machine.raiseHypTrap, hf.pc, mapNext]

theorem PassesThrough.conditionFailed (i : Instr) (s : State) :
    Machine.conditionFailed i (f s) = mapNext f (Machine.conditionFailed i s) := by
  cases hc : i.undefCause with
  | none => rw [conditionFailed_nop (.inl hc), conditionFailed_nop (.inl hc), hf.complete]
  | some c =>
    cases hcf : s.condFailUndef with
    | nop => rw [conditionFailed_nop (.inr hcf), conditionFailed_nop (.inr (by rwa [hf.condFailUndef])), hf.complete]
    | undefined =>
      rw [conditionFailed_undefined hc hcf, conditionFailed_undefined hc (by rwa [hf.condFailUndef]),
        hf.raiseUndefined]
    | either =>
      have hdraw := hf.complete { s with freeChoices := s.freeChoices + 1 }
      rw [hf.draw] at hdraw
      rw [conditionFailed_either hc hcf, conditionFailed_either hc (by rwa [hf.condFailUndef]), apply_ite (mapNext f),
        ← hf.raiseUndefined, ← hdraw]
      simp only [hf.freeChoices]

/-- With the enable check's answer equal, the change passes through the held condition, the operation `op` becoming
`op'`. -/
theorem PassesThrough.conditionHeld {op op' : State → State} (hop : ∀ s, op' (f s) = f (op s)) (i : Instr) {s : State}
    (ha : advSimdAnswer (f s) = advSimdAnswer s) :
    Machine.conditionHeld i op' (f s) = mapNext f (Machine.conditionHeld i op s) := by
  simp only [Machine.conditionHeld, ha, hf.raiseUndefined, hf.raiseHypTrap, hop, hf.complete]
  cases i.undefCause with
  | some c => rfl
  | none => cases advSimdAnswer s <;> rfl

/-- The change passes through the shared step of one VEXT (R90). -/
theorem PassesThrough.stepVext {op op' : State → State} (hop : ∀ s, op' (f s) = f (op s)) (i : Instr) {s : State}
    (ha : advSimdAnswer (f s) = advSimdAnswer s) :
    Machine.stepVext i op' (f s) = mapNext f (Machine.stepVext i op s) := by
  have ha' : advSimdAnswer (f (Machine.useCondition i.iset s)) = advSimdAnswer (Machine.useCondition i.iset s) := by
    rw [hf.useCondition, advSimdAnswer_useCondition, advSimdAnswer_useCondition, ha]
  simp only [Machine.stepVext, hf.conditionPassed, ← hf.useCondition, hf.conditionFailed, hf.conditionHeld hop i ha']
  split <;> rfl

end Passage

/-! ## The two changes -/

/-- An operation writes `D` cells only. -/
theorem withD_operationOf (u : Vector DWord 32) (i : Instr) (s : State) : (operationOf i s).withD u = s.withD u := by
  cases i <;> rfl

/-- An operation on the registers reads neither `sys` nor the enable check. -/
theorem operationOf_withSys (sys : Sys) (check : AdvSimdCheck) (i : Instr) (s : State) :
    operationOf i (s.withSys sys check) = (operationOf i s).withSys sys check := by
  cases i <;> rfl

/-- Up to its `D` cells, an instruction is the shared step with no operation at all. -/
theorem mapNext_withD_exec (u : Vector DWord 32) (i : Instr) (s : State) :
    mapNext (State.withD u) (exec i s) = stepVext i id (s.withD u) := by
  rw [exec_eq_stepVext, (passesThrough_withD u).stepVext (fun s => (withD_operationOf u i s).symm) i rfl]

/-- What comes before the execution reads no `D` cell. -/
theorem nextInstr_withD (v : Vector DWord 32) (s : State) : nextInstr (s.withD v) = nextInstr s := rfl

theorem nextInstr_withSys (sys : Sys) (check : AdvSimdCheck) (s : State) :
    nextInstr (s.withSys sys check) = nextInstr s := rfl

end Sys2Proof.Machine
end

section
/-! Runs (R143, R146): the run of the host counts steps, and the run of the spec stops at `END`. -/

namespace Sys2Proof.Machine

/-! ## One step of a run -/

theorem core_run_zero (s : State) : Sys2Proof.core.run 0 s = .next s := rfl

/-- A run of the host that goes on has taken its first step. -/
theorem core_run_succ_iff {k : Nat} {s t : State} :
    Sys2Proof.core.run (k + 1) s = .next t ↔ ∃ u, step s = .next u ∧ Sys2Proof.core.run k u = .next t := by
  cases h : step s with
  | next u => simp [core_run_next h]
  | fault f => simp [core_run_fault h]
  | refused r => simp [core_run_refused h]

theorem run_of_final {s : State} (k : Nat) (h : s.Final) : run k s = .final s := by
  cases k <;> rw [run, if_pos h]

/-- Away from `END` a run goes on as its first step does (R146). -/
theorem run_succ_of_next {k : Nat} {s u : State} (hend : s.pc ≠ s.endAddr) (h : step s = .next u) :
    run (k + 1) s = run k u := by
  rw [run, if_neg hend, h]

theorem run_succ_of_fault {k : Nat} {s : State} {f : Fault} (hend : s.pc ≠ s.endAddr) (h : step s = .fault f) :
    run (k + 1) s = .faulted f := by
  rw [run, if_neg hend, h]

/-- A step that answers next was not at `END`. -/
theorem ne_endAddr_of_step {s t : State} (h : step s = .next t) : s.pc ≠ s.endAddr := by
  obtain ⟨i, hnext, -⟩ := step_next_iff.mp h
  exact (nextInstr_ok_iff.mp hnext).1

/-! ## What a run keeps -/

/-- After `k` steps `pc` is `4 * k` higher and the system state as before (R143). -/
theorem core_run_keeps {k : Nat} {s t : State} (h : Sys2Proof.core.run k s = .next t) :
    t.pc.toNat = s.pc.toNat + 4 * k ∧ s.SameBut t ∧ (s.Inv → t.Inv) := by
  induction k generalizing s with
  | zero =>
    obtain rfl : s = t := Host.Outcome.next.inj h
    exact ⟨rfl, .refl s, id⟩
  | succ k ih =>
    obtain ⟨u, hstep, hrun⟩ := core_run_succ_iff.mp h
    obtain ⟨hpc, hsame, hinv⟩ := ih hrun
    have hpc' := step_next_toNat_pc hstep
    exact ⟨by omega, (step_next_keeps hstep).1.trans hsame, fun hs => hinv (hs.step hstep)⟩

/-- A run that is not ended by its bound has taken that many steps. -/
theorem core_run_of_unfinished {k : Nat} {s t : State} (h : run k s = .unfinished t) :
    Sys2Proof.core.run k s = .next t := by
  induction k generalizing s with
  | zero =>
    rw [run] at h
    split at h
    · simp at h
    · exact congrArg _ (RunEnd.unfinished.inj h)
  | succ k ih =>
    rw [run] at h
    split at h
    · simp at h
    · cases hstep : step s with
      | next u => exact core_run_succ_iff.mpr ⟨u, hstep, ih (by simpa only [hstep] using h)⟩
      | fault f => simp [hstep] at h
      | refused r => simp [hstep] at h

/-- A final run has stepped to a state at `END` (R143). -/
theorem core_run_of_final {k : Nat} {s t : State} (h : run k s = .final t) :
    t.Final ∧ ∃ j ≤ k, Sys2Proof.core.run j s = .next t := by
  induction k generalizing s with
  | zero =>
    rw [run] at h
    split at h
    case isTrue hend =>
      obtain rfl : s = t := RunEnd.final.inj h
      exact ⟨hend, 0, le_rfl, rfl⟩
    case isFalse => simp at h
  | succ k ih =>
    by_cases hend : s.Final
    · obtain rfl : s = t := RunEnd.final.inj ((run_of_final _ hend).symm.trans h)
      exact ⟨hend, 0, Nat.zero_le _, rfl⟩
    · rw [run, if_neg hend] at h
      cases hstep : step s with
      | next u =>
        obtain ⟨hfinal, j, hj, hrun⟩ := ih (by simpa only [hstep] using h)
        exact ⟨hfinal, j + 1, Nat.succ_le_succ hj, core_run_succ_iff.mpr ⟨u, hstep, hrun⟩⟩
      | fault f => simp [hstep] at h
      | refused r => simp [hstep] at h

/-! ## Placed programs -/

/-- At the first word of a placed program that is not over, `pc` is away from `END` and has room above it (R142). -/
theorem State.TextPlaced.start {s : State} {w : Word} {ws : List Word} (h : s.TextPlaced (w :: ws))
    (hfit : s.RunNoWrap (ws.length + 1)) : s.pc ≠ s.endAddr ∧ s.NoWrap ∧ s.TextAt w := by
  have hfit' : s.pc.toNat + 4 * (ws.length + 1) < 2 ^ 32 := hfit
  refine ⟨fun he => ?_, decide_eq_true (show s.pc.toNat + 4 < 2 ^ 32 by omega), h.text 0 (Nat.succ_pos _)⟩
  have hend := congrArg BitVec.toNat (he.trans h.endAt)
  rw [BitVec.toNat_ofNat, State.programEnd, List.length_cons, Config.instrBytes, Nat.mod_eq_of_lt hfit'] at hend
  omega

/-- The first instruction of a placed program is the next one (R142, R146). -/
theorem nextInstr_of_textPlaced {s : State} {i : Instr} {prog : List Instr} (hk : i.iset = s.iset) (hal : s.PcAligned)
    (htext : s.TextPlaced ((i :: prog).map encode)) (hfit : s.RunNoWrap (i :: prog).length) :
    nextInstr s = .ok i := by
  obtain ⟨hend, hroom, hword⟩ := htext.start (by rwa [List.length_map])
  exact nextInstr_of_textAt hk hend hroom hal hword

/-- With nothing left of the program, `pc` is at `END` (R142). -/
theorem State.TextPlaced.final {s : State} (h : s.TextPlaced []) : s.Final :=
  (BitVec.eq_of_toNat_eq (by simp [State.programEnd])).trans h.endAt.symm

/-- A step leaves room for the rest of the program. -/
theorem State.RunNoWrap.next {s t : State} {n : Nat} (h : s.RunNoWrap (n + 1)) (hpc : t.pc.toNat = s.pc.toNat + 4) :
    t.RunNoWrap n := by
  simp only [State.RunNoWrap, State.programEnd, Config.instrBytes] at h ⊢
  omega

/-- After its first instruction the launch premises hold of the rest of the program (R142). -/
theorem State.LaunchPremises.next {s t : State} {i : Instr} {w : Word} {ws : List Word}
    (h : s.LaunchPremises (w :: ws)) (hexec : exec i s = .next t) : t.LaunchPremises ws := by
  obtain ⟨hsame, hroom, hpc⟩ := exec_next_keeps hexec
  have hpc' : t.pc.toNat = s.pc.toNat + 4 := by rw [hpc, toNat_pc_add_four hroom]
  exact
    { advSimdEnabled := hsame.advSimdAnswer_eq.trans h.advSimdEnabled
      notInITBlock := fun ht => (h.notInITBlock (hsame.iset.symm.trans ht)).exec hexec
      pcAligned := State.PcAligned.add_four h.pcAligned hsame hpc
      textPlaced := h.textPlaced.next hsame hpc'
      noWrap := h.noWrap.next hpc' }

/-- Under the launch premises the first instruction of a program of defined instructions completes. -/
theorem State.LaunchPremises.exec_first {s : State} {i : Instr} {ws : List Word}
    (h : s.LaunchPremises (encode i :: ws)) (hk : i.iset = s.iset) (hwf : i.wellFormed = true) :
    ∃ t, exec i s = .next t := by
  obtain ⟨-, hroom, -⟩ := h.textPlaced.start h.noWrap
  exact ⟨_, exec_completes ((undefCause_none_iff_wellFormed i).mpr hwf)
    (conditionPassed_of_notInITBlock fun ht => h.notInITBlock (hk.symm.trans ht)) h.advSimdEnabled hroom⟩

end Sys2Proof.Machine
end

section
/-! The obligations about what reaches a step, and about runs. -/

namespace Sys2Proof.Proofs

open Sys2Proof.Machine

/-- Settles O49: up to the `D` cells both steps are one step with no operation. -/
theorem dataNeverSteers : Obligations.DataNeverSteers := by
  intro s u v
  unfold step
  rw [nextInstr_withD]
  cases nextInstr s with
  | error r => rfl
  | ok i => exact (mapNext_withD_exec u i (s.withD v)).trans (mapNext_withD_exec u i s).symm

/-- Settles O50: with the answer equal, the change of `sys` and table passes through the step. -/
theorem sysOnlyThroughEnableCheck : Obligations.SysOnlyThroughEnableCheck := by
  intro s sys check ha
  unfold step
  rw [nextInstr_withSys]
  cases nextInstr s with
  | error r => rfl
  | ok i =>
    simp only [exec_eq_stepVext]
    exact (passesThrough_withSys sys check).stepVext (operationOf_withSys sys check i) i ha

/-- Settles O52, by induction on the number of steps. -/
theorem kStepsAdvanceFourK : Obligations.KStepsAdvanceFourK := fun _ _ _ hrun => core_run_keeps hrun

/-- Settles O53: 2^30 steps would take `pc` past 2^32. -/
theorem everyRunEnds : Obligations.EveryRunEnds := by
  intro k s t hk hrun
  obtain ⟨hpc, -⟩ := core_run_keeps (core_run_of_unfinished hrun)
  have := t.pc.isLt
  omega

/-- Settles O54: the steps taken keep `END`, and each moves `pc` by four. -/
theorem finalRunEndsAtEnd : Obligations.FinalRunEndsAtEnd := by
  intro k s t hrun
  obtain ⟨hfinal, j, hj, hsteps⟩ := core_run_of_final hrun
  obtain ⟨hpc, hsame, -⟩ := core_run_keeps hsteps
  have hend : t.pc = s.endAddr := hfinal.trans hsame.endAddr
  exact ⟨hend, hsame, j, hj, hsteps, by rw [← hend, hpc]⟩

end Sys2Proof.Proofs
end

section
/-! Runs of placed programs (R142, R143). -/

namespace Sys2Proof.Machine

/-- A placed program of the selected instruction set ends at `END` after its number of steps, or stops at the first
instruction that faults; it is never refused (R143). The induction is on the program, since a step leaves the rest of it
placed. -/
theorem run_ends_or_faults {prog : List Instr} {s : State} (hk : ∀ i ∈ prog, i.iset = s.iset) (hal : s.PcAligned)
    (htext : s.TextPlaced (prog.map encode)) (hfit : s.RunNoWrap prog.length) :
    (∃ t, run prog.length s = .final t ∧ Sys2Proof.core.run prog.length s = .next t ∧ t.pc = s.endAddr ∧
      t.pc.toNat = s.pc.toNat + 4 * prog.length) ∨
    (∃ k, ∃ h : k < prog.length, ∃ u f, Sys2Proof.core.run k s = .next u ∧ u.pc.toNat = s.pc.toNat + 4 * k ∧
      exec prog[k] u = .fault f ∧ run prog.length s = .faulted f) := by
  induction prog generalizing s with
  | nil => exact .inl ⟨s, run_of_final 0 htext.final, core_run_zero s, htext.final, rfl⟩
  | cons i prog ih =>
    obtain ⟨hi, hprog⟩ := List.forall_mem_cons.mp hk
    obtain ⟨hend, hroom, -⟩ := State.TextPlaced.start htext (by rwa [List.length_map])
    have hstep : step s = exec i s := step_of_nextInstr (nextInstr_of_textPlaced hi hal htext hfit)
    cases hexec : exec i s with
    | refused r => exact absurd hroom (by simp [State.NoWrap, (exec_refused hexec).1])
    | fault f =>
      exact .inr ⟨0, Nat.succ_pos _, s, f, core_run_zero s, rfl, hexec, run_succ_of_fault hend (hstep.trans hexec)⟩
    | next t =>
      obtain ⟨hsame, -, hpc⟩ := exec_next_keeps hexec
      have hnat : t.pc.toNat = s.pc.toNat + 4 := by rw [hpc, toNat_pc_add_four hroom]
      have hrun := run_succ_of_next (k := prog.length) hend (hstep.trans hexec)
      have hcore := fun k => core_run_next (k := k) (hstep.trans hexec)
      obtain ⟨u, hfinal, hsteps, huend, hu⟩ | ⟨k, hlt, u, f, hsteps, hu, hfault, hstop⟩ :=
        ih (fun j hj => (hprog j hj).trans hsame.iset.symm) (State.PcAligned.add_four hal hsame hpc)
          (State.TextPlaced.next htext hsame hnat) (State.RunNoWrap.next hfit hnat)
      · exact .inl ⟨u, hrun.trans hfinal, (hcore _).trans hsteps, huend.trans hsame.endAddr,
          by rw [hu, hnat, List.length_cons]; omega⟩
      · exact .inr ⟨k + 1, Nat.succ_lt_succ hlt, u, f, (hcore k).trans hsteps, by omega, hfault, hrun.trans hstop⟩

/-- Under the launch premises each instruction of a program of defined instructions is executed in its turn, away from
`END`, and answers next (R142, R143). -/
theorem State.LaunchPremises.steps {prog : List Instr} {s : State} (h : s.LaunchPremises (prog.map encode))
    (hprog : ∀ i ∈ prog, i.iset = s.iset ∧ i.wellFormed = true) {k : Nat} (hlt : k < prog.length) :
    ∃ u v, Sys2Proof.core.run k s = .next u ∧ u.pc ≠ s.endAddr ∧ exec prog[k] u = .next v ∧
      Sys2Proof.core.run (k + 1) s = .next v := by
  induction prog generalizing s k with
  | nil => exact absurd hlt (Nat.not_lt_zero k)
  | cons i prog ih =>
    obtain ⟨⟨hi, hwf⟩, hrest⟩ := List.forall_mem_cons.mp hprog
    have hfit : s.RunNoWrap (i :: prog).length := by simpa only [List.length_map] using h.noWrap
    obtain ⟨t, hexec⟩ := State.LaunchPremises.exec_first h hi hwf
    have hstep : step s = .next t :=
      (step_of_nextInstr (nextInstr_of_textPlaced hi h.pcAligned h.textPlaced hfit)).trans hexec
    obtain ⟨hsame, -, -⟩ := exec_next_keeps hexec
    cases k with
    | zero =>
      exact ⟨s, t, core_run_zero s, ne_endAddr_of_step hstep, hexec, (core_run_next hstep).trans (core_run_zero t)⟩
    | succ k =>
      obtain ⟨u, v, hu, hend, hv, hrun⟩ := ih (State.LaunchPremises.next h hexec)
        (fun j hj => by rw [hsame.iset]; exact hrest j hj) (Nat.lt_of_succ_lt_succ hlt)
      exact ⟨u, v, (core_run_next hstep).trans hu, by rwa [← hsame.endAddr], hv, (core_run_next hstep).trans hrun⟩

end Sys2Proof.Machine
end

section
/-! The obligations about placed programs. -/

namespace Sys2Proof.Proofs

open Sys2Proof.Machine

/-- Settles O57. -/
theorem placedProgramEndsOrFaults : Obligations.PlacedProgramEndsOrFaults := fun _ _ => run_ends_or_faults

/-- Settles O56: the program ends or faults, and under the launch premises no instruction of it faults. -/
theorem premisesRunToEnd : Obligations.PremisesRunToEnd := by
  intro s prog hprog h
  have hsteps : ∀ k (hlt : k < prog.length), ∃ u v, Sys2Proof.core.run k s = .next u ∧ u.pc ≠ s.endAddr ∧
      exec prog[k] u = .next v ∧ Sys2Proof.core.run (k + 1) s = .next v := fun _ hlt => h.steps hprog hlt
  have hfit : s.RunNoWrap prog.length := by simpa only [List.length_map] using h.noWrap
  refine ⟨?_, hsteps⟩
  obtain ⟨t, hfinal, hrun, hend, hpc⟩ | ⟨k, hlt, u, f, hrun, -, hfault, -⟩ :=
    run_ends_or_faults (fun i hi => (hprog i hi).1) h.pcAligned h.textPlaced hfit
  · obtain ⟨-, hsame, -⟩ := core_run_keeps hrun
    exact ⟨t, hfinal, hrun, hend, hpc, hsame⟩
  · obtain ⟨u', v, hrun', -, hexec, -⟩ := hsteps k hlt
    obtain rfl : u' = u := Host.Outcome.next.inj (hrun'.symm.trans hrun)
    exact nomatch hexec.symm.trans hfault

end Sys2Proof.Proofs
end
